-- ==== Sys2Proof/Word.lean ====
section
/-! DEFINITION. The word types of the UEVTC core: one-bit data, four-bit opcodes, eight-bit raw bytes (R8: `DW` is 1,
`OPW` is 4; R82: a raw byte holds two opcodes). -/

namespace Sys2Proof

/-- One bit of the data path: `result`, `carry`, the enables, `data_out`, the data line (R8, R21, R26). -/
abbrev Bit := BitVec 1

/-- A four-bit opcode, or the levels of the four control lines; bit 3 is the most significant (R9, R70, R71). -/
abbrev Opcode := BitVec 4

/-- One byte of the raw format (R82). -/
abbrev Byte := BitVec 8

/-- A one-bit level read as a condition: high, asserted and set mean 1 (R9). -/
def isHigh (b : Bit) : Bool := b == 1#1

end Sys2Proof
end

