-- ==== Sys2Proof/Syntax.lean ====
section
/-! DEFINITION. The sixteen instructions of the opcode table (R70), the three configurations of the command-stream
encoder (R181), and the items of a program in the spec's own notation (R88). -/

namespace Sys2Proof

/-- The instruction set, one constructor per row of the opcode table, in the table's order (R70). No instruction has
an operand field (R76, R77). -/
inductive Instr where
  | nop0 | ld | add | sub | one | nand | or | xor
  | sto | stoc | ien | oen | jmp | rtn | skz | nopf
deriving DecidableEq, Repr

/-- The configurations of the command-stream encoder: `off` (diff), `inst` (fixed length), `data` (fixed length plus
data) (R39, R181). -/
inductive Mode where
  | off | inst | data
deriving DecidableEq, Repr, Inhabited

/-- One item of a program: an instruction, a set-data directive, or a mode selection (R87, R88). Labels generate
nothing and have no construct (R86). -/
inductive Item where
  | op (i : Instr)
  | setData (v : Bit)
  | mode (m : Mode)
deriving DecidableEq, Repr

end Sys2Proof
end

