-- ==== Sys2Proof/Config.lean ====
section
/-! DEFINITION. What an instance of the core fixes when it is created (the parameters of R8), the characters the spec
fixes, and the free values of the model. -/

namespace Sys2Proof.Config

/-- `INIT`, the power-on values of six PSM registers (R8, R240). The spec leaves them open; its defaults are all 0
(DESIGN CHOICE of the spec, its decision D7; log entry 1). -/
structure Init where
  instructionRegister : Opcode := 0#4
  inputEnable : Bit := 0#1
  outputEnable : Bit := 0#1
  result : Bit := 0#1
  carry : Bit := 0#1
  dataOut : Bit := 0#1
deriving DecidableEq, Repr

/-- `ALPHABET`, the twelve command characters (R8, R81). The defaults are the spec's placeholders (DESIGN CHOICE of
the spec, its decision D10; log entry 12). -/
structure Alphabet where
  h0 : Char := 'A'
  h1 : Char := 'B'
  h2 : Char := 'C'
  h3 : Char := 'D'
  l0 : Char := 'a'
  l1 : Char := 'b'
  l2 : Char := 'c'
  l3 : Char := 'd'
  dataHigh : Char := 'X'
  dataLow : Char := 'x'
  clock : Char := 'K'
  quit : Char := 'Q'
deriving DecidableEq, Repr

/-- Every parameter of an instance: `INIT`, `ALPHABET`, `CE.comments`, the initial `CE.data_value`, and the levels the
driver starts with (R8, R201, R240; decisions D15 and D30; log entry 1). -/
structure Params where
  init : Init := {}
  alphabet : Alphabet := {}
  comments : Bool := false
  dataValue : Bit := 0#1
  lines : Opcode := 0#4
  dataLine : Bit := 0#1
deriving DecidableEq, Repr

/-- `COMMENT_MARK`, the character `;` (R8). -/
def commentMark : Char := ';'

/-- `LINE_END`, the line feed that ends a comment (R8; its ASCII value is PRESUMED, log entry 17). -/
def lineEnd : Char := '\n'

/-- The carriage return, a comment of one character (R84, R202; PRESUMED value, log entry 17). -/
def carriageReturn : Char := '\r'

/-- The characters ignored between commands: space, TAB, LF (R203; PRESUMED values, log entry 17). -/
def whitespace : List Char := [' ', '\t', '\n']

/-! ### Free values (log entry 9)

After a sink failure the other fields of the failed block, and the units its sink accepted, have any value (R194, R224,
U3). The argument is a counter of the state, so that each failure draws fresh values. -/

/-- FREE VALUE: `RE.acc` after a sink failure (R224, U3). -/
opaque freeAcc : Nat → Opcode

/-- FREE VALUE: `RE.pending` after a sink failure (R224, U3). -/
opaque freePending : Nat → Bool

/-- FREE VALUE: the bytes RE's sink counts as accepted after a failure (R58, R224, U3). -/
opaque freeBytes : Nat → List Byte

/-- FREE VALUE: `CE.mode` after a sink failure (R224, U3). -/
opaque freeMode : Nat → Mode

/-- FREE VALUE: `CE.prev` after an operation that a sink failure aborted (R194, R224, U3). -/
opaque freePrev : Nat → Opcode

/-- FREE VALUE: `CE.data_value` after an operation that a sink failure aborted (R194, R224, U3). -/
opaque freeDataValue : Nat → Bit

/-- FREE VALUE: the characters CE's sink counts as accepted after a failure (R58, R224, U3). -/
opaque freeChars : Nat → List Char

end Sys2Proof.Config
end

