-- ==== Sys2Proof/Machine/State.lean ====
section
/-! DEFINITION. The state of the machine as plain data: the processor state machine PSM, the raw encoder RE, the
command-stream encoder CE, the stream reader SR with the driver's lines, the sinks, the event history, and the state at
power-on (R20, R200, R240). -/

namespace Sys2Proof.Machine

/-- The registers and outputs of PSM (R21 to R34). The output `return` is called `ret`. -/
structure Psm where
  instructionRegister : Opcode
  inputEnable : Bit
  outputEnable : Bit
  result : Bit
  carry : Bit
  skip : Bool
  dataOut : Bit
  flag0 : Bool
  flagF : Bool
  jump : Bool
  ret : Bool
  write : Bool
deriving DecidableEq, Repr

/-- The raw encoder: its nibble accumulator and its sticky failure bit (R38). `count`, the number of opcodes given to
it, is the model's own: it yields the index an error carries (R178, R222; log entry 10). -/
structure RawEncoder where
  acc : Opcode
  pending : Bool
  failed : Bool
  count : Nat
deriving DecidableEq, Repr

/-- The command-stream encoder (R39 to R44). `count`, the number of instructions and directives given to it, is the
model's own (R194, R222; log entry 10). -/
structure CommandEncoder where
  mode : Mode
  prev : Opcode
  dataValue : Bit
  started : Bool
  comments : Bool
  failed : Bool
  count : Nat
deriving DecidableEq, Repr

/-- A sink: the units it has accepted, in order, and the driver's oracle, how many more writes succeed (`none`: every
write does) (R58; log entry 3). -/
structure Sink (α : Type) where
  accepted : List α
  room : Option Nat
deriving DecidableEq, Repr

/-- The stream reader and the levels its driver asserts (R200). `position` counts the characters read (R207) and
`pulseHigh` says that the clock-high half of a `CK` is under way (R205; log entry 7). -/
structure Reader where
  lines : Opcode
  dataLine : Bit
  stopped : Bool
  input : List Char
  position : Nat
  pulseHigh : Bool
deriving DecidableEq, Repr

/-- The four typed errors (R220) with their payloads (R222). A block's operation raises one to its caller; which
operation raises which is R221. -/
inductive CoreError where
  /-- Raised by `lookup`: the string is none of the sixteen mnemonics (R74). -/
  | unknownMnemonic (name : List Char)
  /-- A configuration error of the assembler, outside the core: no block raises it (R221). -/
  | malformedDirective
  /-- Raised by RE and CE when a sink write fails, and again by every later operation; the index of the item being
  emitted, `none` where the operation emits none (R178, R194, R224; log entry 10). -/
  | sinkWriteFailure (index : Option Nat)
  /-- Raised by CE's `select_mode` after output has begun; the mode requested (R182). -/
  | configurationOrdering (mode : Mode)
deriving DecidableEq, Repr

/-- The Instruction Record: name, code and command string (R13, R75). -/
structure InstrRecord where
  name : List Char
  code : Opcode
  command : List Char
deriving DecidableEq, Repr

/-- What a call of RE, CE or the opcode table answers to its caller (R74, R170, R180). -/
inductive CallResult where
  | ok
  | found (r : InstrRecord)
  | raised (e : CoreError)
deriving DecidableEq, Repr

/-- The events PSM records (R52, R54). -/
inductive HistoryEvent where
  | sampled (b : Bit)
  | write (b : Bit)
deriving DecidableEq, Repr

/-- What a driver can do to the core by itself: deliver an edge, change its lines, call an encoder or the opcode
table (R4, R36, R74, R170, R180, R212). The two `assemble` calls are the assembler path, lookup and then an encoder
(R3). -/
inductive Call where
  | risingEdge
  | fallingEdge
  | setLines (v : Opcode)
  | setDataLine (v : Bit)
  | lookup (name : List Char)
  | reEmit (op : Opcode)
  | reFinish
  | ceSelectMode (m : Mode)
  | ceSetData (v : Bit)
  | ceEmit (op : Opcode)
  | assembleRaw (name : List Char)
  | assembleCommand (name : List Char)
deriving DecidableEq, Repr

/-- The whole state. The driver's pending `calls` come before the reader's input (log entry 4); `results` is what the
calls answered, oldest first; `alphabet` is a parameter no step changes (R81); `freeIndex` counts the free values
drawn (log entry 9). -/
structure State where
  psm : Psm
  re : RawEncoder
  reSink : Sink Byte
  ce : CommandEncoder
  ceSink : Sink Char
  sr : Reader
  calls : List Call
  history : List HistoryEvent
  results : List CallResult
  alphabet : Config.Alphabet
  freeIndex : Nat
deriving DecidableEq, Repr

/-- The encoder blocks that can fail (R178, R194). -/
inductive Block where
  | rawEncoder | commandEncoder
deriving DecidableEq, Repr

/-- Why a run faults. No instruction and no operation raises a fault: PSM cannot fail (R114) and a block's error is
returned to its caller in the next state (R221). -/
inductive Fault where
  /-- Raised by the step at the end of a run in which the block's sink has failed (R224, U3: the failed state is never a
  successful end state). Safe: nothing is concluded from such a run. -/
  | sinkWriteFailure (b : Block)
deriving DecidableEq, Repr

/-- Why a step is refused. -/
inductive Refusal where
  /-- Raised by an arm of `exec` for an instruction that has no meaning yet; no arm is left so. Safe. -/
  | notModelled (mnemonic : String)
  /-- Raised by the stream reader at a character that is no command, comment or white space, with its position
  (R207). Safe: the spec refuses the stream there. -/
  | unknownCommandCharacter (position : Nat) (c : Char)
deriving DecidableEq, Repr

/-- Power-on with the parameters of an instance (R46, R240). `acc` is 0 by DESIGN CHOICE (log entry 2); the driver has
no pending call and no stream, and its sinks are empty (log entries 3 and 5). -/
def State.powerOn (p : Config.Params) : State where
  psm := {
    instructionRegister := p.init.instructionRegister, inputEnable := p.init.inputEnable,
    outputEnable := p.init.outputEnable, result := p.init.result, carry := p.init.carry, skip := false,
    dataOut := p.init.dataOut, flag0 := false, flagF := false, jump := false, ret := false, write := false }
  re := { acc := 0#4, pending := false, failed := false, count := 0 }
  reSink := { accepted := [], room := none }
  ce := {
    mode := .off, prev := 0#4, dataValue := p.dataValue, started := false, comments := p.comments, failed := false,
    count := 0 }
  ceSink := { accepted := [], room := none }
  sr := { lines := p.lines, dataLine := p.dataLine, stopped := false, input := [], position := 0, pulseHigh := false }
  calls := []
  history := []
  results := []
  alphabet := p.alphabet
  freeIndex := 0

/-- The machine right after reset: power-on with every parameter at the spec's default (R8, R240). -/
def State.reset : State := State.powerOn {}

end Sys2Proof.Machine
end

