-- ==== Sys2Proof/Machine/Flags.lean ====
section
/-! DEFINITION. The adder's carry and result (R26, R131), and the pulsed outputs (R106, R110). -/

namespace Sys2Proof.Machine

/-- The exact sum of three bits, 0 to 3: the `t` of R131. -/
def adderSum (a b c : Bit) : Nat := a.toNat + b.toNat + c.toNat

/-- Bit 0 of the sum, which ADD and SUB store in `result` (R26). -/
def sumResult (a b c : Bit) : Bit := BitVec.ofNat 1 (adderSum a b c)

/-- Bit 1 of the sum, which ADD and SUB store in `carry` (R26). -/
def sumCarry (a b c : Bit) : Bit := BitVec.ofNat 1 (adderSum a b c / 2)

/-- All five pulsed outputs low (R106, R110). -/
def Psm.lowerPulses (p : Psm) : Psm :=
  { p with flag0 := false, flagF := false, jump := false, ret := false, write := false }

end Sys2Proof.Machine
end

