-- ==== Sys2Proof/WellFormed.lean ====
section
/-! DEFINITION. The checks on data from outside: the constraints on the command alphabet (R81) and the width of an
opcode value (R170). An instruction has no operand, so none is ill-formed (R76, R78). -/

namespace Sys2Proof

/-- The twelve characters of an alphabet, in the order of R81. -/
def Config.Alphabet.chars (a : Config.Alphabet) : List Char :=
  [a.h0, a.h1, a.h2, a.h3, a.l0, a.l1, a.l2, a.l3, a.dataHigh, a.dataLow, a.clock, a.quit]

/-- The characters no command may be: the comment marker, CR and the white space (R81). -/
def reservedChars : List Char := Config.commentMark :: Config.carriageReturn :: Config.whitespace

/-- The alphabet's constraint: twelve pairwise distinct characters, none of them reserved (R81). -/
abbrev Config.Alphabet.WellFormed (a : Config.Alphabet) : Prop :=
  a.chars.Nodup ∧ ∀ c ∈ a.chars, c ∉ reservedChars

/-- Every instruction is well formed: there is one format and it has no field to check (R76, R78). -/
def Instr.wf (_i : Instr) : Bool := true

/-- An opcode value is a four-bit value; a wider one is a contract violation (R170). -/
def opcodeInRange (v : Nat) : Bool := decide (v < 16)

end Sys2Proof
end

