-- ==== Sys2Proof/Decode.lean ====
section
/-! DEFINITION. The decoder, the encoder, and the raw format's bytes (R70, R71, R82, R90, R91). -/

namespace Sys2Proof

/-- Why a number is no instruction: it is wider than four bits (R170; refused, since the spec calls such a value a
contract violation). -/
inductive DecodeError where
  | wideOpcode (value : Nat)
deriving DecidableEq, Repr

/-- The instruction decoder: total, one row per code, read as the table's binary column, bit 3 first (R70, R78, R90). -/
def decode (c : Opcode) : Instr :=
  match c.getLsbD 3, c.getLsbD 2, c.getLsbD 1, c.getLsbD 0 with
  | false, false, false, false => .nop0
  | false, false, false, true  => .ld
  | false, false, true,  false => .add
  | false, false, true,  true  => .sub
  | false, true,  false, false => .one
  | false, true,  false, true  => .nand
  | false, true,  true,  false => .or
  | false, true,  true,  true  => .xor
  | true,  false, false, false => .sto
  | true,  false, false, true  => .stoc
  | true,  false, true,  false => .ien
  | true,  false, true,  true  => .oen
  | true,  true,  false, false => .jmp
  | true,  true,  false, true  => .rtn
  | true,  true,  true,  false => .skz
  | true,  true,  true,  true  => .nopf

/-- Decoding a number: a value above 15 is rejected by name (R170). -/
def decodeValue (v : Nat) : Except DecodeError Instr :=
  if opcodeInRange v then .ok (decode (BitVec.ofNat 4 v)) else .error (.wideOpcode v)

/-- The instruction the decoder reads from a table word `w`: the table's rows are four bits wide, so every bit of `w`
above bit 3 must be 0. -/
def decodeTableWord (_nbits w : Nat) : Option Instr :=
  match decodeValue w with
  | .ok i => some i
  | .error _ => none

/-- The two opcodes of a raw byte: bits 0 to 3 the first, bits 4 to 7 the second (R56, R91). -/
def splitByte (b : Byte) : List Opcode := [b.extractLsb' 0 4, b.extractLsb' 4 4]

/-- Splitting a raw stream back into its opcodes, in stream order (R91). -/
def splitBytes (bs : List Byte) : List Opcode := bs.flatMap splitByte

/-- The instructions of a raw stream; total, since every nibble is an instruction (R78, R91). -/
def decodeBytes (bs : List Byte) : List Instr := (splitBytes bs).map decode

/-- The encoder: the code of an instruction (R70). -/
def encode : Instr → Opcode
  | .nop0 => 0#4
  | .ld   => 1#4
  | .add  => 2#4
  | .sub  => 3#4
  | .one  => 4#4
  | .nand => 5#4
  | .or   => 6#4
  | .xor  => 7#4
  | .sto  => 8#4
  | .stoc => 9#4
  | .ien  => 10#4
  | .oen  => 11#4
  | .jmp  => 12#4
  | .rtn  => 13#4
  | .skz  => 14#4
  | .nopf => 15#4

/-- A raw byte made of two opcodes, the earlier one in the low nibble: `first + 16 * second` (R82, R171). -/
def packByte (first second : Opcode) : Byte := second ++ first

/-- The raw stream of a program: two opcodes a byte, an odd last one padded with NOP0's code (R82). -/
def packBytes : List Opcode → List Byte
  | [] => []
  | [c] => [packByte c 0#4]
  | c :: d :: rest => packByte c d :: packBytes rest

end Sys2Proof
end

