-- ==== Sys2Proof/Machine/Operands.lean ====
section
/-! DEFINITION. The one operand form of the machine: the data operand of step 4 (R77, R104). -/

namespace Sys2Proof.Machine

/-- Whether the rising edge of the opcode `i` samples the data line: when inputs are enabled before the edge, or the
latched opcode is IEN (R52, R104). -/
def samples (i : Instr) (p : Psm) : Bool := isHigh p.inputEnable || i == .ien

/-- `data_in`: the data line's level when it is sampled, else 0 (R104). -/
def dataIn (i : Instr) (s : State) : Bit := if samples i s.psm then s.sr.dataLine else 0#1

end Sys2Proof.Machine
end

