-- ==== Sys2Proof/Machine/Ops.lean ====
section
/-! DEFINITION. The shared operations: the named updates of State, the rising edge around an opcode's own effect, the
falling edge, and a sink's write. The machine has no memory, and no exception is ever entered or returned from (R50,
R229, R230). -/

namespace Sys2Proof.Machine

/-- Replace PSM. -/
def State.withPsm (s : State) (p : Psm) : State := { s with psm := p }

/-- Append to the event history (R60). -/
def State.record (s : State) (es : List HistoryEvent) : State := { s with history := s.history ++ es }

/-- Return a result to the caller of an operation. -/
def State.answer (s : State) (r : CallResult) : State := { s with results := s.results ++ [r] }

/-- Replace the raw encoder and its sink. -/
def State.withRe (s : State) (e : RawEncoder) (k : Sink Byte) : State := { s with re := e, reSink := k }

/-- Replace the command-stream encoder and its sink. -/
def State.withCe (s : State) (e : CommandEncoder) (k : Sink Char) : State := { s with ce := e, ceSink := k }

/-- Replace the reader and the driver's lines. -/
def State.withSr (s : State) (r : Reader) : State := { s with sr := r }

/-- Replace the driver's pending calls. -/
def State.withCalls (s : State) (cs : List Call) : State := { s with calls := cs }

/-- Move on to the next free value (log entry 9). -/
def State.drawFree (s : State) : State := { s with freeIndex := s.freeIndex + 1 }

/-- Steps 1 and 3 of a rising edge, with the pulses of R106 lowered until step 5 raises one: the skip is consumed and
the opcode latched (R101, R103). -/
def Psm.latch (p : Psm) (i : Instr) : Psm := { p.lowerPulses with skip := false, instructionRegister := encode i }

/-- The samples a rising edge records: one when the data line is sampled, none otherwise (R52, R107). -/
def sampleEvents (i : Instr) (s : State) : List HistoryEvent :=
  if samples i s.psm then [.sampled s.sr.dataLine] else []

/-- The write event of a rising edge that raises `write` (R54). -/
def writeEvents (p : Psm) : List HistoryEvent := if p.write then [.write p.dataOut] else []

/-- One rising edge with the opcode `i` latched: steps 1, 3 and 4, then the opcode's own `effect` on PSM, which is given
`data_in`, then the events of the edge, the sample before the write (R63, R107). -/
def rise (i : Instr) (effect : Bit → Psm → Psm) (s : State) : State :=
  let p := effect (dataIn i s) (s.psm.latch i)
  (s.withPsm p).record (sampleEvents i s ++ writeEvents p)

/-- The falling edge clears all five pulsed outputs and nothing else (R110). -/
def fallingEdge (s : State) : State := s.withPsm s.psm.lowerPulses

/-- Step 2 of a rising edge, the Instruction Reader: the control lines, or all high when a skip is pending (R102). -/
def candidate (s : State) : Opcode := s.sr.lines ||| (if s.psm.skip then 15#4 else 0#4)

/-- The instruction the next rising edge latches (R90, R102). -/
def fetch (s : State) : Instr := decode (candidate s)

/-- `SinkWrite`: the unit is appended and the write succeeds, or nothing is appended and it fails (R58). -/
def Sink.put {α : Type} (k : Sink α) (c : α) : Bool × Sink α :=
  match k.room with
  | none => (true, { k with accepted := k.accepted ++ [c] })
  | some 0 => (false, k)
  | some (n + 1) => (true, { accepted := k.accepted ++ [c], room := some n })

/-- Write units in order, stopping at the first failure (R183, R194). -/
def Sink.putAll {α : Type} : List α → Sink α → Bool × Sink α
  | [], k => (true, k)
  | c :: rest, k =>
    match k.put c with
    | (true, k') => Sink.putAll rest k'
    | (false, k') => (false, k')

/-- Place an opcode where the next step fetches it: the control lines carry it, no skip is pending to override it, and
a rising edge is the driver's next call (log entry 5). -/
def State.driveOpcode (s : State) (c : Opcode) : State :=
  { s with
    psm := { s.psm with skip := false }
    sr := { s.sr with lines := c }
    calls := .risingEdge :: s.calls }

end Sys2Proof.Machine
end

