-- ==== Sys2Proof/Machine/Alu.lean ====
section
/-! DEFINITION. Load, arithmetic and logic: LD, ADD, SUB, ONE, NAND, OR, XOR (R130 to R136). -/

namespace Sys2Proof.Machine

/-- LD: `result` takes `data_in` (R130). -/
def execLd (s : State) : Host.Outcome State Fault Refusal :=
  .next (rise .ld (fun d p => { p with result := d }) s)

/-- ADD: `result` and `carry` take the two-bit sum of `result`, `data_in` and `carry` (R131). -/
def execAdd (s : State) : Host.Outcome State Fault Refusal :=
  .next (rise .add (fun d p =>
    { p with result := sumResult p.result d p.carry, carry := sumCarry p.result d p.carry }) s)

/-- SUB: as ADD, with the complement of `data_in`, taken after the gating of step 4 (R132). -/
def execSub (s : State) : Host.Outcome State Fault Refusal :=
  .next (rise .sub (fun d p =>
    { p with result := sumResult p.result (~~~d) p.carry, carry := sumCarry p.result (~~~d) p.carry }) s)

/-- ONE: `result` is set and `carry` cleared (R133). -/
def execOne (s : State) : Host.Outcome State Fault Refusal :=
  .next (rise .one (fun _ p => { p with result := 1#1, carry := 0#1 }) s)

/-- NAND (R134). -/
def execNand (s : State) : Host.Outcome State Fault Refusal :=
  .next (rise .nand (fun d p => { p with result := ~~~(p.result &&& d) }) s)

/-- OR (R135). -/
def execOr (s : State) : Host.Outcome State Fault Refusal :=
  .next (rise .or (fun d p => { p with result := p.result ||| d }) s)

/-- XOR (R136). -/
def execXor (s : State) : Host.Outcome State Fault Refusal :=
  .next (rise .xor (fun d p => { p with result := p.result ^^^ d }) s)

end Sys2Proof.Machine
end

