-- ==== Sys2Proof/Machine/Control.lean ====
section
/-! DEFINITION. Control: JMP, RTN, SKZ (R160 to R162). There is no program counter: JMP and RTN signal the driver, and
a set `skip` turns the next rising edge's opcode into NOPF (R24, R163, R250). -/

namespace Sys2Proof.Machine

/-- JMP pulses `jump` and skips nothing (R160). -/
def execJmp (s : State) : Host.Outcome State Fault Refusal :=
  .next (rise .jmp (fun _ p => { p with jump := true }) s)

/-- RTN pulses `return` and sets `skip` (R161). -/
def execRtn (s : State) : Host.Outcome State Fault Refusal :=
  .next (rise .rtn (fun _ p => { p with ret := true, skip := true }) s)

/-- SKZ sets `skip` exactly when `result` is 0, and pulses nothing (R162). -/
def execSkz (s : State) : Host.Outcome State Fault Refusal :=
  .next (rise .skz (fun _ p => { p with skip := !isHigh p.result }) s)

end Sys2Proof.Machine
end

