-- ==== Sys2Proof/Machine/Enable.lean ====
section
/-! DEFINITION. The enables IEN and OEN (R150, R151). -/

namespace Sys2Proof.Machine

/-- IEN: `input_enable` takes the data line's level, always sampled (R150). -/
def execIen (s : State) : Host.Outcome State Fault Refusal :=
  .next (rise .ien (fun d p => { p with inputEnable := d }) s)

/-- OEN: `output_enable` takes the gated `data_in` (R151). -/
def execOen (s : State) : Host.Outcome State Fault Refusal :=
  .next (rise .oen (fun d p => { p with outputEnable := d }) s)

end Sys2Proof.Machine
end

