-- ==== Sys2Proof/Machine/FlagNops.lean ====
section
/-! DEFINITION. The flag no-operations NOP0 and NOPF (R120, R121). -/

namespace Sys2Proof.Machine

/-- NOP0 changes no register and pulses `flag0` (R120). -/
def execNop0 (s : State) : Host.Outcome State Fault Refusal :=
  .next (rise .nop0 (fun _ p => { p with flag0 := true }) s)

/-- NOPF changes no register and pulses `flag_f` unless a pending skip forced it (R121). -/
def execNopf (s : State) : Host.Outcome State Fault Refusal :=
  .next (rise .nopf (fun _ p => { p with flagF := !s.psm.skip }) s)

end Sys2Proof.Machine
end

