-- ==== Sys2Proof/Machine/Store.lean ====
section
/-! DEFINITION. The stores STO and STOC (R140, R141). -/

namespace Sys2Proof.Machine

/-- STO: `data_out` takes `result` whatever `output_enable` is; `write` pulses only when it is 1 (R140). -/
def execSto (s : State) : Host.Outcome State Fault Refusal :=
  .next (rise .sto (fun _ p => { p with dataOut := p.result, write := isHigh p.outputEnable }) s)

/-- STOC: as STO, driving the complement of `result`, which itself is unchanged (R141). -/
def execStoc (s : State) : Host.Outcome State Fault Refusal :=
  .next (rise .stoc (fun _ p => { p with dataOut := ~~~p.result, write := isHigh p.outputEnable }) s)

end Sys2Proof.Machine
end

