-- ==== Sys2Proof/Machine/Dispatch.lean ====
section
/-! DEFINITION. One arm per instruction (R90, R105). An arm is one rising edge of PSM with that opcode latched, from the
state before the edge. -/

namespace Sys2Proof.Machine

def exec (i : Instr) (s : State) : Host.Outcome State Fault Refusal :=
  match i with
  | .nop0 => Sys2Proof.Machine.execNop0 s
  | .ld => Sys2Proof.Machine.execLd s
  | .add => Sys2Proof.Machine.execAdd s
  | .sub => Sys2Proof.Machine.execSub s
  | .one => Sys2Proof.Machine.execOne s
  | .nand => Sys2Proof.Machine.execNand s
  | .or => Sys2Proof.Machine.execOr s
  | .xor => Sys2Proof.Machine.execXor s
  | .sto => Sys2Proof.Machine.execSto s
  | .stoc => Sys2Proof.Machine.execStoc s
  | .ien => Sys2Proof.Machine.execIen s
  | .oen => Sys2Proof.Machine.execOen s
  | .jmp => Sys2Proof.Machine.execJmp s
  | .rtn => Sys2Proof.Machine.execRtn s
  | .skz => Sys2Proof.Machine.execSkz s
  | .nopf => Sys2Proof.Machine.execNopf s

end Sys2Proof.Machine
end

