-- ==== Sys2Proof/Machine/OpTable.lean ====
section
/-! DEFINITION. The opcode table as data: names, command strings, `record` and `lookup` (R70, R72, R74, R75, R80). -/

namespace Sys2Proof.Machine

/-- The sixteen instructions in the table's order (R70). -/
def allInstrs : List Instr :=
  [.nop0, .ld, .add, .sub, .one, .nand, .or, .xor, .sto, .stoc, .ien, .oen, .jmp, .rtn, .skz, .nopf]

/-- The canonical, upper-case mnemonic (R70). -/
def mnemonic : Instr → List Char
  | .nop0 => ['N', 'O', 'P', '0']
  | .ld   => ['L', 'D']
  | .add  => ['A', 'D', 'D']
  | .sub  => ['S', 'U', 'B']
  | .one  => ['O', 'N', 'E']
  | .nand => ['N', 'A', 'N', 'D']
  | .or   => ['O', 'R']
  | .xor  => ['X', 'O', 'R']
  | .sto  => ['S', 'T', 'O']
  | .stoc => ['S', 'T', 'O', 'C']
  | .ien  => ['I', 'E', 'N']
  | .oen  => ['O', 'E', 'N']
  | .jmp  => ['J', 'M', 'P']
  | .rtn  => ['R', 'T', 'N']
  | .skz  => ['S', 'K', 'Z']
  | .nopf => ['N', 'O', 'P', 'F']

/-- The four control lines in the order a command string lists them, line 0 first (R80). -/
def lineOrder : List (Fin 4) := [0, 1, 2, 3]

/-- `Hk` or `Lk`: the character that sets control line `k` to a level (R80, R81). -/
def lineChar (a : Config.Alphabet) (k : Fin 4) (high : Bool) : Char :=
  match k, high with
  | 0, true => a.h0
  | 1, true => a.h1
  | 2, true => a.h2
  | 3, true => a.h3
  | 0, false => a.l0
  | 1, false => a.l1
  | 2, false => a.l2
  | 3, false => a.l3

/-- `DH` or `DL`: the character that sets the data line (R81). -/
def dataChar (a : Config.Alphabet) (v : Bit) : Char := if isHigh v then a.dataHigh else a.dataLow

/-- The command string of an opcode (R80). -/
def commandString (a : Config.Alphabet) (c : Opcode) : List Char :=
  lineOrder.map fun (k : Fin 4) => lineChar a k (c.getLsbD k)

/-- `record(code)`: the Instruction Record of a code; total (R75). -/
def recordOf (a : Config.Alphabet) (c : Opcode) : InstrRecord :=
  { name := mnemonic (decode c), code := c, command := commandString a c }

/-- ASCII case folding of one character: `a` to `z` become `A` to `Z` (R74; PRESUMED values, log entry 17). -/
def foldCase (c : Char) : Char :=
  if 97 ≤ c.toNat ∧ c.toNat ≤ 122 then Char.ofNat (c.toNat - 32) else c

/-- The instruction a name stands for: the folded name is compared whole, without trimming (R74). -/
def findMnemonic (name : List Char) : Option Instr :=
  allInstrs.find? fun i => mnemonic i == name.map foldCase

/-- `lookup(name)`: the matching Instruction Record, or `UnknownMnemonic` with the string (R74, R222). -/
def lookup (a : Config.Alphabet) (name : List Char) : Except CoreError InstrRecord :=
  match findMnemonic name with
  | some i => .ok (recordOf a (encode i))
  | none => .error (.unknownMnemonic name)

/-- A caller's `lookup`: no block's state changes (R74, R221). -/
def lookupCall (name : List Char) (s : State) : State :=
  match lookup s.alphabet name with
  | .ok r => s.answer (.found r)
  | .error e => s.answer (.raised e)

end Sys2Proof.Machine
end

