-- ==== Sys2Proof/Machine/CommandEncoder.lean ====
section
/-! DEFINITION. The command-stream encoder CE (R180 to R188, R194). -/

namespace Sys2Proof.Machine

/-- The block of diff mode: one character for every control line whose level changes, then the clock pulse (R184). -/
def diffBlock (a : Config.Alphabet) (prev op : Opcode) : List Char :=
  let changed := lineOrder.filter fun (k : Fin 4) => op.getLsbD k != prev.getLsbD k
  changed.map (fun (k : Fin 4) => lineChar a k (op.getLsbD k)) ++ [a.clock]

/-- The block of an instruction in the mode in force (R184, R185, R186). -/
def block (a : Config.Alphabet) (e : CommandEncoder) (op : Opcode) : List Char :=
  match e.mode with
  | .off => diffBlock a e.prev op
  | .inst => commandString a op ++ [a.clock]
  | .data => commandString a op ++ [dataChar a e.dataValue, a.clock]

/-- The annotation of an instruction: the comment marker, its name, a line feed (R188). -/
def annotation (op : Opcode) : List Char := Config.commentMark :: mnemonic (decode op) ++ [Config.lineEnd]

/-- Everything `emit` writes for an opcode (R183). -/
def emission (a : Config.Alphabet) (e : CommandEncoder) (op : Opcode) : List Char :=
  block a e op ++ (if e.comments then annotation op else [])

/-- A sink failure of CE: `failed` is set and `SinkWriteFailure` raised with the index of the item (R194). `put` has set
`started` before it wrote (R183). `mode`, `prev`, `data_value` and what the sink has accepted are free values from then on
(R194, R224, U3; log entry 9). -/
def ceFail (e : CommandEncoder) (k : Sink Char) (index : Nat) (s : State) : State :=
  ((s.withCe
      { e with
        started := true, failed := true, mode := Config.freeMode s.freeIndex
        prev := Config.freePrev s.freeIndex, dataValue := Config.freeDataValue s.freeIndex }
      { k with accepted := Config.freeChars s.freeIndex }).drawFree).answer (.raised (.sinkWriteFailure (some index)))

/-- Write characters to CE's sink and answer the caller: when all are accepted the encoder becomes `e`; at the first
failure the operation stops (R183, R194). -/
def ceWrite (e : CommandEncoder) (cs : List Char) (index : Nat) (s : State) : State :=
  match Sink.putAll cs s.ceSink with
  | (true, k) => (s.withCe { e with started := true } k).answer .ok
  | (false, k) => ceFail e k index s

/-- CE's `select_mode`: rejected once output has begun; a failed encoder reports the failure first (R182, R226). -/
def ceSelectMode (m : Mode) (s : State) : State :=
  if s.ce.failed then s.answer (.raised (.sinkWriteFailure none))
  else if s.ce.started then s.answer (.raised (.configurationOrdering m))
  else (s.withCe { s.ce with mode := m } s.ceSink).answer .ok

/-- CE's `set_data`: the value is configured, and in modes `off` and `inst` its character is written at once (R187). -/
def ceSetData (v : Bit) (s : State) : State :=
  let e := { s.ce with count := s.ce.count + 1 }
  if s.ce.failed then (s.withCe e s.ceSink).answer (.raised (.sinkWriteFailure (some s.ce.count)))
  else
    match s.ce.mode with
    | .data => (s.withCe { e with dataValue := v } s.ceSink).answer .ok
    | _ => ceWrite { e with dataValue := v } [dataChar s.alphabet v] s.ce.count s

/-- CE's `emit`: the block of the mode, then the annotation; diff mode then remembers the opcode (R183, R184). -/
def ceEmit (op : Opcode) (s : State) : State :=
  let e := { s.ce with count := s.ce.count + 1 }
  if s.ce.failed then (s.withCe e s.ceSink).answer (.raised (.sinkWriteFailure (some s.ce.count)))
  else
    ceWrite { e with prev := if s.ce.mode = .off then op else s.ce.prev } (emission s.alphabet s.ce op) s.ce.count s

end Sys2Proof.Machine
end

