-- ==== Sys2Proof/Machine/RawEncoder.lean ====
section
/-! DEFINITION. The raw opcode encoder RE (R170 to R178). -/

namespace Sys2Proof.Machine

/-- A sink failure of RE: the sticky bit is set and `SinkWriteFailure` raised with the index of the opcode being emitted
(R178). `acc`, `pending` and what the sink has accepted are free values from then on (R224, U3; log entry 9). -/
def reFail (e : RawEncoder) (k : Sink Byte) (index : Nat) (s : State) : State :=
  ((s.withRe
      { e with
        acc := Config.freeAcc s.freeIndex, pending := Config.freePending s.freeIndex, failed := true }
      { k with accepted := Config.freeBytes s.freeIndex }).drawFree).answer (.raised (.sinkWriteFailure (some index)))

/-- Write one byte of the raw encoder `e` to its sink and answer the caller, or fail (R171, R172, R178). -/
def reWrite (e : RawEncoder) (b : Byte) (index : Nat) (s : State) : State :=
  match s.reSink.put b with
  | (true, k) => (s.withRe e k).answer .ok
  | (false, k) => reFail e k index s

/-- RE's `emit`: the first opcode of a pair is kept, the second flushes a byte with the first in its low nibble
(R171). -/
def reEmit (op : Opcode) (s : State) : State :=
  let e := { s.re with count := s.re.count + 1 }
  if s.re.failed then (s.withRe e s.reSink).answer (.raised (.sinkWriteFailure (some s.re.count)))
  else if s.re.pending then
    reWrite { e with pending := false } (packByte s.re.acc op) s.re.count s
  else (s.withRe { e with acc := op, pending := true } s.reSink).answer .ok

/-- RE's `finish`: a pending opcode is flushed with NOP0's code in the high nibble; with nothing pending nothing is
written (R172). The index of a failure is that of the pending opcode (log entry 10). -/
def reFinish (s : State) : State :=
  if s.re.failed then s.answer (.raised (.sinkWriteFailure none))
  else if s.re.pending then
    reWrite { s.re with pending := false } (packByte s.re.acc 0#4) (s.re.count - 1) s
  else s.answer .ok

end Sys2Proof.Machine
end

