-- ==== Sys2Proof/Machine/StreamReader.lean ====
section
/-! DEFINITION. The reference command-stream reader SR (R200 to R208). -/

namespace Sys2Proof.Machine

/-- The commands of the alphabet (R81). -/
inductive Command where
  | line (k : Fin 4) (high : Bool)
  | data (v : Bit)
  | clock
  | quit
deriving DecidableEq, Repr

/-- What the driver's turn asks of the core: an edge, nothing more, nothing because the run has ended (R208), or a
refusal of the stream. -/
inductive Turn where
  | rising
  | falling
  | quiet
  | ended
  | refuse (r : Refusal)
deriving DecidableEq, Repr

/-- The command a character stands for, if any (R81, R204 to R206). -/
def commandOf (a : Config.Alphabet) (c : Char) : Option Command :=
  if c = a.h0 then some (.line 0 true)
  else if c = a.h1 then some (.line 1 true)
  else if c = a.h2 then some (.line 2 true)
  else if c = a.h3 then some (.line 3 true)
  else if c = a.l0 then some (.line 0 false)
  else if c = a.l1 then some (.line 1 false)
  else if c = a.l2 then some (.line 2 false)
  else if c = a.l3 then some (.line 3 false)
  else if c = a.dataHigh then some (.data 1#1)
  else if c = a.dataLow then some (.data 0#1)
  else if c = a.clock then some .clock
  else if c = a.quit then some .quit
  else none

/-- The lines with line `k` set to a level (R204). -/
def setLine (v : Opcode) (k : Fin 4) (high : Bool) : Opcode :=
  if high then v ||| BitVec.twoPow 4 k else v &&& ~~~(BitVec.twoPow 4 k)

/-- What is left of the input after a comment: everything behind the next LF, or nothing (R202). -/
def dropComment : List Char → List Char
  | [] => []
  | c :: rest => if c = Config.lineEnd then rest else dropComment rest

/-- The reader after it has read the input up to `rest`. -/
def Reader.advance (r : Reader) (rest : List Char) : Reader :=
  { r with input := rest, position := r.position + (r.input.length - rest.length) }

/-- A command carried out, its character already read (R204, R205, R206). A clock pulse asks for the rising edge and
leaves its falling edge due (log entry 7). -/
def obey (c : Command) (s : State) : Turn × State :=
  match c with
  | .line k high => (.quiet, s.withSr { s.sr with lines := setLine s.sr.lines k high })
  | .data v => (.quiet, s.withSr { s.sr with dataLine := v })
  | .clock => (.rising, s.withSr { s.sr with pulseHigh := true })
  | .quit => (.quiet, s.withSr { s.sr with stopped := true })

/-- One character read: a comment is discarded whole, CR and white space are discarded, a command is carried out, and
anything else is refused (R202, R203, R207). -/
def readChar (c : Char) (rest : List Char) (s : State) : Turn × State :=
  if c = Config.commentMark then (.quiet, s.withSr (s.sr.advance (dropComment rest)))
  else if c = Config.carriageReturn ∨ c ∈ Config.whitespace then (.quiet, s.withSr (s.sr.advance rest))
  else
    match commandOf s.alphabet c with
    | some k => obey k (s.withSr (s.sr.advance rest))
    | none => (.refuse (.unknownCommandCharacter s.sr.position c), s)

/-- The reader's turn: the falling edge of a pulse under way, else the next character; once it has stopped or its input
is exhausted the run has ended, it delivers nothing, and the core holds its state (R205, R206, R208, R236; log
entry 6). -/
def readerTurn (s : State) : Turn × State :=
  if s.sr.pulseHigh then (.falling, s.withSr { s.sr with pulseHigh := false })
  else if s.sr.stopped then (.ended, s)
  else
    match s.sr.input with
    | [] => (.ended, s)
    | c :: rest => readChar c rest s

end Sys2Proof.Machine
end

