-- ==== Sys2Proof/Machine/Driver.lean ====
section
/-! DEFINITION. The driver's turn: its next pending call, or the stream reader (R4, R36, R200, R212), the assembler path
(R3), and programs in the spec's notation as calls (R88). -/

namespace Sys2Proof.Machine

/-- The assembler path for the raw encoder: an unknown mnemonic emits nothing (R3, R221). -/
def assembleRaw (name : List Char) (s : State) : State :=
  match lookup s.alphabet name with
  | .ok r => reEmit r.code s
  | .error e => s.answer (.raised e)

/-- The assembler path for the command-stream encoder: an unknown mnemonic emits nothing (R3, R221). -/
def assembleCommand (name : List Char) (s : State) : State :=
  match lookup s.alphabet name with
  | .ok r => ceEmit r.code s
  | .error e => s.answer (.raised e)

/-- One call of the driver carried out; an edge is left to the step. -/
def takeCall (c : Call) (s : State) : Turn × State :=
  match c with
  | .risingEdge => (.rising, s)
  | .fallingEdge => (.falling, s)
  | .setLines v => (.quiet, s.withSr { s.sr with lines := v })
  | .setDataLine v => (.quiet, s.withSr { s.sr with dataLine := v })
  | .lookup name => (.quiet, lookupCall name s)
  | .reEmit op => (.quiet, reEmit op s)
  | .reFinish => (.quiet, reFinish s)
  | .ceSelectMode m => (.quiet, ceSelectMode m s)
  | .ceSetData v => (.quiet, ceSetData v s)
  | .ceEmit op => (.quiet, ceEmit op s)
  | .assembleRaw name => (.quiet, assembleRaw name s)
  | .assembleCommand name => (.quiet, assembleCommand name s)

/-- The driver's turn: its own pending calls come first, then the stream reader (log entry 4). -/
def driverTurn (s : State) : Turn × State :=
  match s.calls with
  | c :: rest => takeCall c (s.withCalls rest)
  | [] => readerTurn s

/-- The end of a run: nothing is left to do. A run in which an encoder's sink has failed is a fault, never a successful
end state (R224, U3; log entry 8); any other end state holds for as long as nothing happens (R208, R236; log
entry 6). -/
def endOfRun (s : State) : Host.Outcome State Fault Refusal :=
  if s.re.failed then .fault (.sinkWriteFailure .rawEncoder)
  else if s.ce.failed then .fault (.sinkWriteFailure .commandEncoder)
  else .next s

/-- An item given to the raw encoder, which ignores everything but opcodes (R88, R177). -/
def rawCalls : Item → List Call
  | .op i => [.reEmit (encode i)]
  | .setData _ => []
  | .mode _ => []

/-- An item given to the command-stream encoder (R87, R88). -/
def commandCalls : Item → List Call
  | .op i => [.ceEmit (encode i)]
  | .setData v => [.ceSetData v]
  | .mode m => [.ceSelectMode m]

/-- An item given to PSM directly: an instruction is one clock cycle, a directive the level of the data line from then
on (R88). -/
def traceCalls : Item → List Call
  | .op i => [.setLines (encode i), .risingEdge, .fallingEdge]
  | .setData v => [.setDataLine v]
  | .mode _ => []

end Sys2Proof.Machine
end

