-- ==== Sys2Proof/Machine/Step.lean ====
section
/-! DEFINITION. One step of the machine: the driver's turn, and the edge it asks for, if any (R4, R60, R100). -/

namespace Sys2Proof.Machine

/-- One event. On a rising edge the Instruction Reader's instruction runs (R102, R105); a falling edge retracts the
pulses (R110); the end of a run is judged (R224); every other turn changes only what the driver's turn itself
changed. -/
def step (s : State) : Host.Outcome State Fault Refusal :=
  match driverTurn s with
  | (.rising, t) => exec (fetch t) t
  | (.falling, t) => .next (fallingEdge t)
  | (.quiet, t) => .next t
  | (.ended, t) => endOfRun t
  | (.refuse r, _) => .refused r

/-- The state with an opcode where the next step fetches it: on the control lines, with a rising edge due and no skip
pending (log entry 5). The opcode is bits 3 to 0 of the word (R71). -/
def State.withFetchWord (s : State) (_nbits w : Nat) : State := s.driveOpcode (BitVec.ofNat 4 w)

end Sys2Proof.Machine
end

