-- ==== Sys2Proof/Safety.lean ====
section
/-! DEFINITION. What counts as a good run, in the terms claims use: the invariant of the machine, and the judgement of a
run's end state. -/

namespace Sys2Proof.Safety

open Sys2Proof.Machine

/-- How many pulsed outputs are high (R33). -/
def pulseCount (p : Psm) : Nat :=
  p.flag0.toNat + p.flagF.toNat + p.jump.toNat + p.ret.toNat + p.write.toNat

/-- PSM's invariant. A high pulse belongs to the latched instruction (R32); `write` is high only with outputs enabled
and while `data_out` carries the stored bit (R140, R141); `skip` is 1 only after RTN, or after SKZ with `result = 0`
(R28); `return` comes with `skip` (R161). -/
structure PsmOk (p : Psm) : Prop where
  flag0 : p.flag0 = true → p.instructionRegister = 0#4
  flagF : p.flagF = true → p.instructionRegister = 15#4
  jump : p.jump = true → p.instructionRegister = 12#4
  ret : p.ret = true → p.instructionRegister = 13#4 ∧ p.skip = true
  write : p.write = true → p.outputEnable = 1#1 ∧
    (p.instructionRegister = 8#4 ∧ p.dataOut = p.result ∨ p.instructionRegister = 9#4 ∧ p.dataOut = ~~~p.result)
  skip : p.skip = true → p.instructionRegister = 13#4 ∨ p.instructionRegister = 14#4 ∧ p.result = 0#1

/-- The machine's invariant: PSM's; CE has begun output where it has failed (R183's `put`; log entry 11) or
its sink has accepted a character (R42); the
alphabet keeps its constraint (R81). -/
structure Consistent (s : State) : Prop where
  psm : PsmOk s.psm
  failed_started : s.ce.failed = true → s.ce.started = true
  unstarted_empty : s.ce.started = false → s.ceSink.accepted = []
  alphabet : s.alphabet.WellFormed

/-- A state in which an encoder's sink has failed: nothing may be concluded from its stream (R58, R224). -/
def faulted (s : State) : Bool := s.re.failed || s.ce.failed

/-- The judgement of any state as if the run ended there: the one the step itself makes at the end of a run (R224; log
entry 8). -/
def judge (s : State) : Host.Outcome State Fault Refusal := endOfRun s

/-- Nothing is left for a step to do: no call is pending, no clock pulse is under way, and the reader has stopped or read
its whole input (R208). -/
def AtEnd (s : State) : Prop :=
  s.calls = [] ∧ s.sr.pulseHigh = false ∧ (s.sr.stopped = true ∨ s.sr.input = [])

/-- A run of `n` steps with its end state judged. -/
def judgedRun (n : Nat) (s : State) : Host.Outcome State Fault Refusal :=
  match Sys2Proof.core.run n s with
  | .next t => judge t
  | .fault r => .fault r
  | .refused r => .refused r

end Sys2Proof.Safety
end

