-- ==== Sys2Proof/Certificates/Slice0/Obligations.lean ====
section
/-! DEFINITION. The statements for the provers, and the functions of the spec they are written in. The names under
`Sys2Proof.Reference` transcribe the spec's own pseudocode of the edges and of the command blocks in its own numbers,
without the model's meanings or its shared operations, and name the terms the statements use. -/

namespace Sys2Proof.Reference

open Sys2Proof.Machine

/-! ### The rising edge as the spec's one function (R107) -/

/-- The opcode of a rising edge: the lines, all high on a forced skip (R102). -/
def opcodeOf (p : Psm) (lines : Opcode) : Opcode := if p.skip then 15#4 else lines

/-- Whether the edge samples the data line (R104). -/
def sampledOn (p : Psm) (lines : Opcode) : Bool := p.inputEnable = 1#1 ∨ opcodeOf p lines = 10#4

/-- `data_in` (R104). -/
def dataInOn (p : Psm) (lines : Opcode) (dataLine : Bit) : Bit := if sampledOn p lines then dataLine else 0#1

/-- PSM after `onRisingEdge(S, lines, data_line)` (R106, R107). -/
def onRisingEdge (p : Psm) (lines : Opcode) (dataLine : Bit) : Psm :=
  let opcode := opcodeOf p lines
  let d := dataInOn p lines dataLine
  let addend := if opcode = 3#4 then 1 - d.toNat else d.toNat
  let t := p.result.toNat + addend + p.carry.toNat
  { instructionRegister := opcode
    inputEnable := if opcode = 10#4 then d else p.inputEnable
    outputEnable := if opcode = 11#4 then d else p.outputEnable
    result :=
      if opcode = 1#4 then d
      else if opcode = 2#4 ∨ opcode = 3#4 then BitVec.ofNat 1 (t % 2)
      else if opcode = 4#4 then 1#1
      else if opcode = 5#4 then BitVec.ofNat 1 (1 - p.result.toNat * d.toNat)
      else if opcode = 6#4 then p.result ||| d
      else if opcode = 7#4 then p.result ^^^ d
      else p.result
    carry :=
      if opcode = 2#4 ∨ opcode = 3#4 then BitVec.ofNat 1 (t / 2)
      else if opcode = 4#4 then 0#1
      else p.carry
    skip := decide (opcode = 13#4 ∨ (opcode = 14#4 ∧ p.result = 0#1))
    dataOut :=
      if opcode = 8#4 then p.result
      else if opcode = 9#4 then BitVec.ofNat 1 (1 - p.result.toNat)
      else p.dataOut
    flag0 := decide (opcode = 0#4)
    flagF := decide (opcode = 15#4 ∧ p.skip = false)
    jump := decide (opcode = 12#4)
    ret := decide (opcode = 13#4)
    write := decide ((opcode = 8#4 ∨ opcode = 9#4) ∧ p.outputEnable = 1#1) }

/-- The events the rising edge records: `Sampled` when the line was sampled, `Write` when `write` becomes 1 (R107). -/
def edgeEvents (p : Psm) (lines : Opcode) (dataLine : Bit) : List HistoryEvent :=
  (if sampledOn p lines then [.sampled dataLine] else []) ++
    (if (onRisingEdge p lines dataLine).write then [.write (onRisingEdge p lines dataLine).dataOut] else [])

/-- PSM after `onFallingEdge(S)` (R110). -/
def onFallingEdge (p : Psm) : Psm :=
  { instructionRegister := p.instructionRegister, inputEnable := p.inputEnable, outputEnable := p.outputEnable
    result := p.result, carry := p.carry, skip := p.skip, dataOut := p.dataOut
    flag0 := false, flagF := false, jump := false, ret := false, write := false }

/-- PSM and its history after one clock cycle with these levels (R205). -/
def clockCycle (ph : Psm × List HistoryEvent) (level : Opcode × Bit) : Psm × List HistoryEvent :=
  (onFallingEdge (onRisingEdge ph.1 level.1 level.2), ph.2 ++ edgeEvents ph.1 level.1 level.2)

/-! ### Terms of the per-instruction statements -/

/-- PSM with the opcode `c` latched, the skip consumed, every pulse low and all else kept. -/
def quietLatch (p : Psm) (c : Opcode) : Psm :=
  { instructionRegister := c, inputEnable := p.inputEnable, outputEnable := p.outputEnable
    result := p.result, carry := p.carry, skip := false, dataOut := p.dataOut
    flag0 := false, flagF := false, jump := false, ret := false, write := false }

/-- `data_in` of every opcode but IEN: the data line if inputs are enabled, else 0 (R104). -/
def gatedData (s : State) : Bit := if s.psm.inputEnable = 1#1 then s.sr.dataLine else 0#1

/-- What the edge of every opcode but IEN samples: the data line, if inputs are enabled (R52). -/
def gatedSample (s : State) : List HistoryEvent := if s.psm.inputEnable = 1#1 then [.sampled s.sr.dataLine] else []

/-- Wherever a rising edge is due, a skip is pending and the lines carry `c`, the step latches NOPF instead: the skip is
consumed, no register changes, nothing pulses and nothing is written (R251). -/
def SkippedOn (c : Opcode) : Prop :=
  ∀ (s : State) (rest : List Call), s.calls = .risingEdge :: rest → s.psm.skip = true → s.sr.lines = c →
    step s = .next { s with
      calls := rest, psm := quietLatch s.psm 15#4, history := s.history ++ gatedSample s }

/-! ### Terms of the encoder and reader statements -/

/-- From `s` to `t` an operation of RE raised `SinkWriteFailure`: RE has failed, the error is answered, nothing outside
RE and its sink changes, and RE's other fields and what the sink has accepted are left open (R178, R224, U3). -/
def RawFailure (rest : List Call) (index : Option Nat) (s t : State) : Prop :=
  t.re.failed = true ∧
  t = { s with
    calls := rest, re := t.re, reSink := t.reSink, freeIndex := t.freeIndex
    results := s.results ++ [.raised (.sinkWriteFailure index)] }

/-- As `RawFailure`, for CE (R194, R224, U3). -/
def CommandFailure (rest : List Call) (index : Option Nat) (s t : State) : Prop :=
  t.ce.failed = true ∧
  t = { s with
    calls := rest, ce := t.ce, ceSink := t.ceSink, freeIndex := t.freeIndex
    results := s.results ++ [.raised (.sinkWriteFailure index)] }

/-- `Hk` if bit `k` of the opcode is 1, else `Lk` (R80, R81). -/
def selectLine (a : Config.Alphabet) (c : Opcode) (k : Nat) : Char :=
  if c.getLsbD k then [a.h0, a.h1, a.h2, a.h3].getD k a.h0 else [a.l0, a.l1, a.l2, a.l3].getD k a.l0

/-- The characters `emit(opcode)` writes, line by line as R183 to R186 and R188 list them. -/
def specEmission (a : Config.Alphabet) (e : CommandEncoder) (c : Opcode) : List Char :=
  let changed := fun k => if c.getLsbD k = e.prev.getLsbD k then [] else [selectLine a c k]
  (match e.mode with
    | .off => changed 0 ++ changed 1 ++ changed 2 ++ changed 3 ++ [a.clock]
    | .inst => [selectLine a c 0, selectLine a c 1, selectLine a c 2, selectLine a c 3, a.clock]
    | .data =>
      [selectLine a c 0, selectLine a c 1, selectLine a c 2, selectLine a c 3,
        if e.dataValue = 1#1 then a.dataHigh else a.dataLow, a.clock]) ++
  (if e.comments then [';'] ++ (recordOf a c).name ++ ['\n'] else [])

/-- How many control lines differ between two opcodes: `popcount(c ⊕ p)` (R191). -/
def changedLines (p c : Opcode) : Nat := ((List.range 4).filter fun k => (c ^^^ p).getLsbD k).length

/-- Every opcode differs from its predecessor in all four bits, the first from `p` (R191). -/
def AllBitsDiffer : Opcode → List Opcode → Prop
  | _, [] => True
  | p, c :: rest => c = ~~~p ∧ AllBitsDiffer c rest

/-- The opcodes of a program's items, in order. -/
def opcodes : List Item → List Opcode
  | [] => []
  | .op i :: rest => encode i :: opcodes rest
  | .setData _ :: rest => opcodes rest
  | .mode _ :: rest => opcodes rest

/-- How many set-data directives a program has. -/
def directives : List Item → Nat
  | [] => 0
  | .op _ :: rest => directives rest
  | .setData _ :: rest => directives rest + 1
  | .mode _ :: rest => directives rest

/-- The levels of the control lines and the data line on each clock cycle of a program: cycle `i` carries opcode `i` and
the value of the last set-data directive before it, `d` if there is none (R211). -/
def levels : Bit → List Item → List (Opcode × Bit)
  | _, [] => []
  | d, .op i :: rest => (encode i, d) :: levels d rest
  | _, .setData v :: rest => levels v rest
  | d, .mode _ :: rest => levels d rest

/-- A program of instructions and set-data directives, with no mode selection in it. -/
def NoModeItem (items : List Item) : Prop := ∀ m, Item.mode m ∉ items

/-- Characters of the annotations of a program: `;`, the name, LF for each (R188). -/
def annotationLength (items : List Item) : Nat :=
  ((opcodes items).map fun c => (mnemonic (decode c)).length + 2).sum

/-- How many characters a program takes in a fixed-length mode: 5 an instruction and 1 a directive in `inst`, 6 an
instruction in `data` (R190), and the annotations if comments are on (R188). -/
def fixedLength (e : CommandEncoder) (items : List Item) : Nat :=
  (if e.mode = .inst then 5 * (opcodes items).length + directives items else 6 * (opcodes items).length) +
    (if e.comments then annotationLength items else 0)

/-- The driver's calls that a program makes to the command-stream encoder, and nothing else pending. -/
def EncodesCommands (s : State) (items : List Item) : Prop :=
  NoModeItem items ∧ s.calls = items.flatMap commandCalls ∧ s.ce.failed = false ∧ s.ceSink.room = none

end Sys2Proof.Reference

open Sys2Proof Sys2Proof.Machine Sys2Proof.Safety Sys2Proof.Reference

/-! ### The opcode table and the raw format -/

/-- The sixteen rows of the opcode table: what each code decodes to, and its record under the default alphabet (R70,
R75, R80; the twelve codes the source does not state are the spec's decision D1, log entry 13, the order of a command
string its D11, the characters its D10, log entry 12). -/
def Obligations.OpcodeTableRows : Prop :=
  (List.range 16).map (fun n => (decode (BitVec.ofNat 4 n), recordOf {} (BitVec.ofNat 4 n))) =
    [(.nop0, ⟨['N', 'O', 'P', '0'], 0#4, ['a', 'b', 'c', 'd']⟩),
     (.ld, ⟨['L', 'D'], 1#4, ['A', 'b', 'c', 'd']⟩),
     (.add, ⟨['A', 'D', 'D'], 2#4, ['a', 'B', 'c', 'd']⟩),
     (.sub, ⟨['S', 'U', 'B'], 3#4, ['A', 'B', 'c', 'd']⟩),
     (.one, ⟨['O', 'N', 'E'], 4#4, ['a', 'b', 'C', 'd']⟩),
     (.nand, ⟨['N', 'A', 'N', 'D'], 5#4, ['A', 'b', 'C', 'd']⟩),
     (.or, ⟨['O', 'R'], 6#4, ['a', 'B', 'C', 'd']⟩),
     (.xor, ⟨['X', 'O', 'R'], 7#4, ['A', 'B', 'C', 'd']⟩),
     (.sto, ⟨['S', 'T', 'O'], 8#4, ['a', 'b', 'c', 'D']⟩),
     (.stoc, ⟨['S', 'T', 'O', 'C'], 9#4, ['A', 'b', 'c', 'D']⟩),
     (.ien, ⟨['I', 'E', 'N'], 10#4, ['a', 'B', 'c', 'D']⟩),
     (.oen, ⟨['O', 'E', 'N'], 11#4, ['A', 'B', 'c', 'D']⟩),
     (.jmp, ⟨['J', 'M', 'P'], 12#4, ['a', 'b', 'C', 'D']⟩),
     (.rtn, ⟨['R', 'T', 'N'], 13#4, ['A', 'b', 'C', 'D']⟩),
     (.skz, ⟨['S', 'K', 'Z'], 14#4, ['a', 'B', 'C', 'D']⟩),
     (.nopf, ⟨['N', 'O', 'P', 'F'], 15#4, ['A', 'B', 'C', 'D']⟩)]

/-- Names and codes correspond one to one: decoding and encoding are inverse to each other on all codes and all
instructions, and no two instructions share a name (R72). -/
def Obligations.CodesAreABijection : Prop :=
  (∀ c, encode (decode c) = c) ∧ (∀ i, decode (encode i) = i) ∧ ∀ i j, mnemonic i = mnemonic j → i = j

/-- `lookup` folds the ASCII letters `a` to `z` to `A` to `Z` and no other character, compares the whole name and
answers the record of the instruction so named, whose name is the folded one; any other string is `UnknownMnemonic` with
that string (R74). The folding of ASCII letters only and the absence of trimming are the spec's decision D21, the ASCII
values log entry 17 (PRESUMED). -/
def Obligations.LookupFoldsCaseAndComparesWhole : Prop :=
  (∀ n, n < 26 → foldCase (Char.ofNat (97 + n)) = Char.ofNat (65 + n)) ∧
  (∀ c : Char, (c.toNat < 97 ∨ 122 < c.toNat) → foldCase c = c) ∧
  ∀ (a : Config.Alphabet) (name : List Char),
    (∀ i, name.map foldCase = mnemonic i →
      lookup a name = .ok { name := name.map foldCase, code := encode i, command := commandString a (encode i) }) ∧
    ((∀ i, name.map foldCase ≠ mnemonic i) → lookup a name = .error (.unknownMnemonic name))

/-- An unknown mnemonic is returned to the caller as an error and changes no block; nothing is emitted (R221, first
row). -/
def Obligations.UnknownMnemonicChangesNoBlock : Prop :=
  ∀ (s : State) (name : List Char) (rest : List Call) (call : Call),
    (∀ i, name.map foldCase ≠ mnemonic i) → call ∈ [.lookup name, .assembleRaw name, .assembleCommand name] →
    s.calls = call :: rest →
    step s = .next { s with calls := rest, results := s.results ++ [.raised (.unknownMnemonic name)] }

/-- The assembler path: a mnemonic in any letter case is looked up, and its code is emitted by the encoder asked; a plain
`lookup` answers the record and changes nothing else (R3, R74). -/
def Obligations.KnownMnemonicIsEmitted : Prop :=
  ∀ (s : State) (name : List Char) (i : Instr) (rest : List Call), name.map foldCase = mnemonic i →
    (s.calls = .lookup name :: rest → step s = .next { s with
      calls := rest, results := s.results ++ [.found (recordOf s.alphabet (encode i))] }) ∧
    (s.calls = .assembleRaw name :: rest → step s = step { s with calls := .reEmit (encode i) :: rest }) ∧
    (s.calls = .assembleCommand name :: rest → step s = step { s with calls := .ceEmit (encode i) :: rest })

/-- RE's `emit` (R171): the first opcode of a pair is kept and nothing is written; the second writes one byte, the first
opcode in its low nibble; a failed write sets `failed` and raises; a failed encoder raises without writing. Left open are
the model's own `count` and the index of the error (RawFailureNamesTheOpcode says them) and, after a failure, every other
field of RE and what its sink has accepted (U3). `acc` is left open too once the pair is flushed, where nothing is pending
(R38, U5). -/
def Obligations.RawEmitWritesOnEverySecondCall : Prop :=
  ∀ (s : State) (op : Opcode) (rest : List Call), s.calls = .reEmit op :: rest →
    (s.re.failed = false → s.re.pending = false → ∃ n : Nat,
      step s = .next { s with
        calls := rest, re := { acc := op, pending := true, failed := false, count := n }
        results := s.results ++ [.ok] }) ∧
    (s.re.failed = false → s.re.pending = true → s.reSink.room ≠ some 0 →
      ∃ (n : Nat) (acc : Opcode) (b : Byte), b.toNat = s.re.acc.toNat + 16 * op.toNat ∧
        step s = .next { s with
          calls := rest, re := { acc := acc, pending := false, failed := false, count := n }
          reSink := { accepted := s.reSink.accepted ++ [b], room := s.reSink.room.map (· - 1) }
          results := s.results ++ [.ok] }) ∧
    (s.re.failed = false → s.re.pending = true → s.reSink.room = some 0 →
      ∃ t index, step s = .next t ∧ RawFailure rest index s t) ∧
    (s.re.failed = true →
      ∃ t index, step s = .next t ∧ RawFailure rest index s t ∧ t.reSink = s.reSink)

/-- The error of a failed `emit` carries the zero-based index of the opcode being emitted: how many opcodes RE was given
before it, which the model counts (R178, R222, the spec's decisions D19 and D23; the counter is the model's choice, log
entry 10). -/
def Obligations.RawFailureNamesTheOpcode : Prop :=
  ∀ (s : State) (op : Opcode) (rest : List Call), s.calls = .reEmit op :: rest →
    ∃ t, step s = .next t ∧ t.re.count = s.re.count + 1 ∧
      ((s.re.failed = true ∨ s.re.pending = true ∧ s.reSink.room = some 0) →
        t.re.failed = true ∧ t.results = s.results ++ [.raised (.sinkWriteFailure (some s.re.count))])

/-- RE's `finish` with a sink that does not fail: a pending opcode is written with NOP0's code in the high nibble; with
nothing pending nothing is written (R172). A failed write sets `failed` and raises, and a failed encoder raises without
writing (R178); every other field of RE, and what its sink has accepted, is left open after a failure (U3). What `finish`
does with nothing pending and that `emit` may follow it are the spec's decision D20, the stickiness its D19. That `acc`
keeps its value while nothing is pending, which R38, R240 and U5 leave open, is the model's choice (log entry 2). -/
def Obligations.RawFinishPadsWithNop0 : Prop :=
  ∀ (s : State) (rest : List Call), s.calls = .reFinish :: rest →
    (s.re.failed = false → s.re.pending = false →
      step s = .next { s with calls := rest, results := s.results ++ [.ok] }) ∧
    (s.re.failed = false → s.re.pending = true → s.reSink.room ≠ some 0 →
      ∃ b : Byte, b.toNat = s.re.acc.toNat ∧
        step s = .next { s with
          calls := rest, re := { s.re with pending := false }
          reSink := { accepted := s.reSink.accepted ++ [b], room := s.reSink.room.map (· - 1) }
          results := s.results ++ [.ok] }) ∧
    (s.re.failed = false → s.re.pending = true → s.reSink.room = some 0 →
      ∃ t index, step s = .next t ∧ RawFailure rest index s t) ∧
    (s.re.failed = true →
      ∃ t index, step s = .next t ∧ RawFailure rest index s t ∧ t.reSink = s.reSink)

/-- Emitting `N` opcodes and finishing writes exactly `ceil(N / 2)` bytes, byte `j` being `c[2j] + 16 * c[2j + 1]` with
0 for a missing last opcode (R174, which the spec marks as derived from R171 and R172). -/
def Obligations.RawStreamHasThePairsInOrder : Prop :=
  ∀ (s : State) (ops : List Opcode),
    s.calls = ops.map .reEmit ++ [.reFinish] → s.re.pending = false → s.re.failed = false → s.reSink.room = none →
    ∃ (t : State) (bytes : List Byte),
      Sys2Proof.core.run (ops.length + 1) s = .next t ∧ t.calls = [] ∧
      t.reSink.accepted = s.reSink.accepted ++ bytes ∧ bytes.length = (ops.length + 1) / 2 ∧
      ∀ (j : Nat) (h : j < bytes.length),
        bytes[j].toNat = (ops[2 * j]?.getD 0#4).toNat + 16 * (ops[2 * j + 1]?.getD 0#4).toNat

/-- Encoding opcodes to raw bytes and splitting the bytes into nibbles gives the opcodes back, with one trailing NOP0 if
their number is odd (R175). -/
def Obligations.RawRoundTrip : Prop :=
  ∀ (s : State) (ops : List Opcode),
    s.calls = ops.map .reEmit ++ [.reFinish] → s.re.pending = false → s.re.failed = false → s.reSink.room = none →
    ∃ (t : State) (bytes : List Byte),
      Sys2Proof.core.run (ops.length + 1) s = .next t ∧ t.reSink.accepted = s.reSink.accepted ++ bytes ∧
      splitBytes bytes = ops ++ (if ops.length % 2 = 1 then [0#4] else []) ∧
      decodeBytes bytes = ops.map decode ++ (if ops.length % 2 = 1 then [.nop0] else [])

/-! ### Reset, invariant, step -/

/-- Power-on of any instance: every parameter stands where it belongs, and of the rest of the state R240's table gives 0
or `off`. Left out are `acc` (open, log entry 2) and the free-value counter (log entry 9). That the driver's
calls, the reader's input, the history, the answers and the sinks are empty, the sinks never failing, and the counters 0 is
the model's choice (log entries 3, 4, 5, 7, 8, 10, 16, 18); the parameters' defaults and the zero of `failed` and of the
driver's levels are the spec's decisions D7, D10, D15, D19 and D30 (log entries 1 and 12). -/
def Obligations.PowerOnValues : Prop :=
  (∀ p : Config.Params,
    let s := State.powerOn p
    s.psm.instructionRegister = p.init.instructionRegister ∧ s.psm.inputEnable = p.init.inputEnable ∧
    s.psm.outputEnable = p.init.outputEnable ∧ s.psm.result = p.init.result ∧ s.psm.carry = p.init.carry ∧
    s.psm.dataOut = p.init.dataOut ∧ s.psm.skip = false ∧ pulseCount s.psm = 0 ∧
    s.re.pending = false ∧ s.re.failed = false ∧ s.re.count = 0 ∧
    s.ce.mode = .off ∧ s.ce.prev = 0#4 ∧ s.ce.dataValue = p.dataValue ∧ s.ce.started = false ∧
    s.ce.comments = p.comments ∧ s.ce.failed = false ∧ s.ce.count = 0 ∧
    s.sr = { lines := p.lines, dataLine := p.dataLine, stopped := false, input := [], position := 0,
             pulseHigh := false } ∧
    s.reSink = { accepted := [], room := none } ∧ s.ceSink = { accepted := [], room := none } ∧
    s.calls = [] ∧ s.history = [] ∧ s.results = [] ∧ s.alphabet = p.alphabet) ∧
  State.reset = State.powerOn
    { init := ⟨0#4, 0#1, 0#1, 0#1, 0#1, 0#1⟩, alphabet := {}, comments := false, dataValue := 0#1, lines := 0#4,
      dataLine := 0#1 }

/-- The reset state meets the machine's invariant. -/
def Obligations.ResetIsConsistent : Prop := Consistent State.reset

/-- Every step from a state that meets the invariant ends in one that meets it: a high pulse belongs to the latched
opcode, `skip` follows RTN or SKZ with `result = 0` only, `write` implies outputs enabled, CE's `started` and `failed`
agree with its sink (R32, R42, R113 (b); that CE has started where it has failed is DEDUCED from R183's `put`, log
entry 11; R28 says the rule of `skip` again and is marked as derived by the spec). -/
def Obligations.StepKeepsConsistent : Prop :=
  ∀ s t : State, Consistent s → step s = .next t → Consistent t

/-- At most one pulsed output is high after any run from a consistent state, and none after a falling edge (R113 (d); R33
says the same and is marked as derived by the spec). -/
def Obligations.AtMostOnePulse : Prop :=
  (∀ (s t : State) (n : Nat), Consistent s → Sys2Proof.core.run n s = .next t → pulseCount t.psm ≤ 1) ∧
  ∀ (s : State), (driverTurn s).1 = .falling → ∃ t, step s = .next t ∧ pulseCount t.psm = 0

/-- Where the driver's next call is a rising edge, the step is `exec` of the instruction the control lines carry, or of
NOPF if a skip is pending; the call is taken from the driver's list (R90, R102, R105). -/
def Obligations.StepRunsTheSelectedInstruction : Prop :=
  ∀ (s : State) (rest : List Call), s.calls = .risingEdge :: rest →
    (s.psm.skip = false → step s = exec (decode s.sr.lines) { s with calls := rest }) ∧
    (s.psm.skip = true → step s = exec .nopf { s with calls := rest })

/-- An instruction placed with `withFetchWord` is the one the very next step runs (log entry 5, the model's own means of
loading). -/
def Obligations.FetchWordRunsNext : Prop :=
  ∀ (s : State) (i : Instr),
    step (s.withFetchWord 8 (encode i).toNat) =
      exec i { s with psm := { s.psm with skip := false }, sr := { s.sr with lines := encode i } }

/-- The clock-pulse character delivers one rising edge, with the lines and the data line as they stand, and then one
falling edge, after which the pulse is over; with a state between the two, where the outputs can be observed (R205: one
character for both edges is the spec's decision D13; two steps of the model are its own choice, log entry 7; that a sample
stands before a write in the history is log entry 18). The model's `position` is left open here. -/
def Obligations.ClockPulseIsOneCycle : Prop :=
  ∀ (s : State) (rest : List Char), s.alphabet.WellFormed → s.calls = [] → s.sr.pulseHigh = false →
    s.sr.stopped = false → s.sr.input = s.alphabet.clock :: rest →
    ∃ (t : State) (n : Nat), step s = .next t ∧
      t = { s with
        psm := onRisingEdge s.psm s.sr.lines s.sr.dataLine
        history := s.history ++ edgeEvents s.psm s.sr.lines s.sr.dataLine
        sr := { s.sr with input := rest, position := n, pulseHigh := true } } ∧
      step t = .next { t with psm := onFallingEdge t.psm, sr := { t.sr with pulseHigh := false } }

/-- A rising edge is the spec's one function of the state, the lines and the data line; it changes PSM and the event
history and nothing else (R107). That the sample of the edge stands before its write in the history is DEDUCED from the
order of the steps in R63 (log entry 18). -/
def Obligations.RisingEdgeIsTheSpecsFunction : Prop :=
  ∀ (s : State) (rest : List Call), s.calls = .risingEdge :: rest →
    step s = .next { s with
      calls := rest
      psm := onRisingEdge s.psm s.sr.lines s.sr.dataLine
      history := s.history ++ edgeEvents s.psm s.sr.lines s.sr.dataLine }

/-- A falling edge clears the five pulsed outputs and changes nothing else (R110). -/
def Obligations.FallingEdgeClearsThePulses : Prop :=
  ∀ (s : State) (rest : List Call), s.calls = .fallingEdge :: rest →
    step s = .next { s with
      calls := rest
      psm := { s.psm with flag0 := false, flagF := false, jump := false, ret := false, write := false } }

/-- With a skip pending, whatever the lines carry, the rising edge latches 15, clears `skip`, changes no register, pulses
nothing, and samples the data line only if inputs are enabled (R251). -/
def Obligations.ForcedSkipIsSilent : Prop := ∀ c : Opcode, SkippedOn c

/-- Skips do not chain: the edge that consumes a skip leaves none pending, and the one after it runs the instruction on
the lines (R253, which the spec marks as derived). RTN held on the lines alternates with forced NOPFs (R161 (c), marked
as derived). -/
def Obligations.SkipsDoNotChain : Prop :=
  (∀ (s : State) (rest : List Call), s.calls = .risingEdge :: .risingEdge :: rest → s.psm.skip = true →
    ∃ t, step s = .next t ∧ t.psm.skip = false ∧ t.psm.instructionRegister = 15#4 ∧
      step t = exec (decode s.sr.lines) { t with calls := rest }) ∧
  ∀ s : State, s.calls = [.risingEdge, .fallingEdge, .risingEdge, .fallingEdge] → s.psm.skip = false →
    s.sr.lines = 13#4 →
    ∃ t u v w, step s = .next t ∧ step t = .next u ∧ step u = .next v ∧ step v = .next w ∧
      t.psm.instructionRegister = 13#4 ∧ t.psm.ret = true ∧ t.psm.skip = true ∧
      u.psm.ret = false ∧ u.psm.skip = true ∧
      v.psm.instructionRegister = 15#4 ∧ v.psm.ret = false ∧ v.psm.skip = false ∧
      w.psm.skip = false ∧ w.psm.instructionRegister = 15#4

/-- PSM changes on the two edges only: any other turn of the driver leaves all of PSM and its history, a falling edge only
retracts the pulses, and a rising edge executes one instruction (R100). -/
def Obligations.PsmChangesOnlyOnEdges : Prop :=
  ∀ s t : State, step s = .next t →
    ((driverTurn s).1 = .quiet ∨ (driverTurn s).1 = .ended → t.psm = s.psm ∧ t.history = s.history) ∧
    ((driverTurn s).1 = .falling → t.psm = onFallingEdge s.psm ∧ t.history = s.history) ∧
    ((driverTurn s).1 = .rising → ∃ i, step s = exec i (driverTurn s).2)

/-- At the end of a run, no call pending and the reader stopped or its input read, a step leaves the whole state where no
encoder has failed (the model's way to show R208 and R236: log entry 6); where one has, the step is that encoder's fault
(FailedRunIsNeverASuccess). -/
def Obligations.IdleHoldsTheState : Prop :=
  ∀ s : State, AtEnd s → s.re.failed = false → s.ce.failed = false → step s = .next s

/-- No instruction stops: in every state each of the sixteen answers a next state (R114). A step is refused only by the
stream reader, at a character that is no command (R207, the spec's decision D18), and faults only at the end of a run in
which an encoder's sink has failed (R224, the spec's decision D19; log entry 8). -/
def Obligations.InstructionsNeverStop : Prop :=
  (∀ (i : Instr) (s : State), ∃ t, exec i s = .next t) ∧
  ∀ s : State, (∃ t, step s = .next t) ∨
    (∃ c rest, s.calls = [] ∧ s.sr.input = c :: rest ∧ commandOf s.alphabet c = none ∧ c ∉ reservedChars ∧
      step s = .refused (.unknownCommandCharacter s.sr.position c)) ∨
    (AtEnd s ∧ (s.re.failed = true ∨ s.ce.failed = true) ∧ ∃ b, step s = .fault (.sinkWriteFailure b))

/-! ### The sixteen instructions: results and frames

Each says the whole next state: PSM's named registers and outputs, `instruction_register`, `skip`, the event history,
and, by the record update, that nothing else changes. -/

/-- NOP0 (R120): pulses `flag0` until the falling edge and changes no register; all-low lines select it; a skip replaces
it; a raw byte's pad is a NOP0. -/
def Obligations.Nop0PulsesFlag0 : Prop :=
  (∀ s : State, exec .nop0 s = .next { s with
    psm := { quietLatch s.psm 0#4 with flag0 := true }, history := s.history ++ gatedSample s }) ∧
  (∀ s t : State, exec .nop0 s = .next t → (fallingEdge t).psm.flag0 = false) ∧
  decode 0#4 = .nop0 ∧ SkippedOn 0#4 ∧ ∀ c : Opcode, decodeBytes [packByte c 0#4] = [decode c, .nop0]

/-- NOPF (R121): pulses `flag_f` exactly when no skip forced it, changes no register and leaves no skip pending; a NOPF
that the lines themselves carry is silent too where a skip is pending. -/
def Obligations.NopfPulsesFlagFUnlessForced : Prop :=
  (∀ s : State, exec .nopf s = .next { s with
    psm := { quietLatch s.psm 15#4 with flagF := !s.psm.skip }, history := s.history ++ gatedSample s }) ∧
  SkippedOn 15#4

/-- LD (R130). -/
def Obligations.LdLoadsDataIn : Prop :=
  ∀ s : State, exec .ld s = .next { s with
    psm := { quietLatch s.psm 1#4 with result := gatedData s }, history := s.history ++ gatedSample s }

/-- ADD (R131): the two result bits are the sum of the three operand bits, exactly. -/
def Obligations.AddIsTheFullAdder : Prop :=
  ∀ s : State, ∃ r c : Bit,
    r.toNat + 2 * c.toNat = s.psm.result.toNat + (gatedData s).toNat + s.psm.carry.toNat ∧
    exec .add s = .next { s with
      psm := { quietLatch s.psm 2#4 with result := r, carry := c }, history := s.history ++ gatedSample s }

/-- SUB (R132, R138): as ADD with the complement of `data_in`, taken after the gating; with carry 1 the new carry says
that no borrow was needed (R132 (b), marked by the spec as derived from R138). -/
def Obligations.SubAddsTheComplement : Prop :=
  ∀ s : State, ∃ r c : Bit,
    r.toNat + 2 * c.toNat = s.psm.result.toNat + (1 - (gatedData s).toNat) + s.psm.carry.toNat ∧
    (s.psm.carry = 1#1 → (c = 1#1 ↔ (gatedData s).toNat ≤ s.psm.result.toNat)) ∧
    exec .sub s = .next { s with
      psm := { quietLatch s.psm 3#4 with result := r, carry := c }, history := s.history ++ gatedSample s }

/-- ONE (R133): `result` is set and `carry` cleared; it is the only instruction that puts both into a known state
whatever the state before. -/
def Obligations.OneSetsResultClearsCarry : Prop :=
  (∀ s : State, exec .one s = .next { s with
    psm := { quietLatch s.psm 4#4 with result := 1#1, carry := 0#1 }, history := s.history ++ gatedSample s }) ∧
  ∀ i : Instr, (∃ r c : Bit, ∀ s t : State, exec i s = .next t → t.psm.result = r ∧ t.psm.carry = c) ↔ i = .one

/-- NAND (R134): the new `result` is 0 exactly when both operands are 1. -/
def Obligations.NandOfResultAndDataIn : Prop :=
  ∀ s : State, exec .nand s = .next { s with
    psm := { quietLatch s.psm 5#4 with
      result := if s.psm.result = 1#1 ∧ gatedData s = 1#1 then 0#1 else 1#1 }
    history := s.history ++ gatedSample s }

/-- OR (R135): the new `result` is 1 exactly when an operand is 1. -/
def Obligations.OrOfResultAndDataIn : Prop :=
  ∀ s : State, exec .or s = .next { s with
    psm := { quietLatch s.psm 6#4 with
      result := if s.psm.result = 1#1 ∨ gatedData s = 1#1 then 1#1 else 0#1 }
    history := s.history ++ gatedSample s }

/-- XOR (R136): the new `result` is 1 exactly when the operands differ; where `carry` is 0 it is the `result` of ADD. -/
def Obligations.XorOfResultAndDataIn : Prop :=
  (∀ s : State, exec .xor s = .next { s with
    psm := { quietLatch s.psm 7#4 with result := if s.psm.result = gatedData s then 0#1 else 1#1 }
    history := s.history ++ gatedSample s }) ∧
  ∀ s t u : State, s.psm.carry = 0#1 → exec .xor s = .next t → exec .add s = .next u → t.psm.result = u.psm.result

/-- STO (R140): `data_out` takes `result` whatever `output_enable` is; `write` pulses and a write is recorded exactly
when it is 1; the falling edge lowers `write` and keeps `data_out`; a skip replaces it. That `data_out` is kept while
`write` is 0 is the spec's decision D4 (R34, U11; log entry 14), that a sample stands before the write in the history log
entry 18 (DEDUCED). -/
def Obligations.StoDrivesResult : Prop :=
  (∀ s : State, exec .sto s = .next { s with
    psm := { quietLatch s.psm 8#4 with dataOut := s.psm.result, write := decide (s.psm.outputEnable = 1#1) }
    history := s.history ++ gatedSample s ++
      (if s.psm.outputEnable = 1#1 then [.write s.psm.result] else []) }) ∧
  (∀ s t : State, exec .sto s = .next t →
    (fallingEdge t).psm.dataOut = s.psm.result ∧ (fallingEdge t).psm.write = false) ∧
  SkippedOn 8#4

/-- STOC (R141): as STO with the complement of `result`, which itself is unchanged. As for STO, that `data_out` is kept
while `write` is 0 is the spec's decision D4 (R34, U11; log entry 14), and the order of sample and write log entry 18
(DEDUCED). -/
def Obligations.StocDrivesTheComplement : Prop :=
  (∀ s : State, ∃ b : Bit, b.toNat = 1 - s.psm.result.toNat ∧ exec .stoc s = .next { s with
    psm := { quietLatch s.psm 9#4 with dataOut := b, write := decide (s.psm.outputEnable = 1#1) }
    history := s.history ++ gatedSample s ++ (if s.psm.outputEnable = 1#1 then [.write b] else []) }) ∧
  (∀ s t : State, exec .stoc s = .next t →
    (fallingEdge t).psm.dataOut = t.psm.dataOut ∧ (fallingEdge t).psm.write = false) ∧
  SkippedOn 9#4

/-- IEN (R150): `input_enable` takes the data line's level, sampled whatever `input_enable` was; a skip replaces it. -/
def Obligations.IenAlwaysSamples : Prop :=
  (∀ s : State, exec .ien s = .next { s with
    psm := { quietLatch s.psm 10#4 with inputEnable := s.sr.dataLine }
    history := s.history ++ [.sampled s.sr.dataLine] }) ∧
  SkippedOn 10#4

/-- OEN (R151): `output_enable` takes the gated `data_in`. -/
def Obligations.OenTakesGatedData : Prop :=
  ∀ s : State, exec .oen s = .next { s with
    psm := { quietLatch s.psm 11#4 with outputEnable := gatedData s }, history := s.history ++ gatedSample s }

/-- JMP (R160): pulses `jump`, skips nothing, changes no register; the falling edge lowers it; a skip replaces it. -/
def Obligations.JmpPulsesJump : Prop :=
  (∀ s : State, exec .jmp s = .next { s with
    psm := { quietLatch s.psm 12#4 with jump := true }, history := s.history ++ gatedSample s }) ∧
  (∀ s t : State, exec .jmp s = .next t → (fallingEdge t).psm.jump = false) ∧
  SkippedOn 12#4

/-- RTN (R161): pulses `return` and sets `skip`; the falling edge lowers `return` and leaves `skip`. -/
def Obligations.RtnPulsesReturnAndSkips : Prop :=
  (∀ s : State, exec .rtn s = .next { s with
    psm := { quietLatch s.psm 13#4 with ret := true, skip := true }, history := s.history ++ gatedSample s }) ∧
  ∀ s t : State, exec .rtn s = .next t → (fallingEdge t).psm.ret = false ∧ (fallingEdge t).psm.skip = true

/-- SKZ (R162): sets `skip` exactly when `result` is 0; pulses nothing. -/
def Obligations.SkzSkipsOnZero : Prop :=
  ∀ s : State, exec .skz s = .next { s with
    psm := { quietLatch s.psm 14#4 with skip := decide (s.psm.result = 0#1) }
    history := s.history ++ gatedSample s }

/-! ### Rules over all instructions -/

/-- Which opcodes can change which register: `result`, `carry`, the enables, `data_out`, and which can leave a skip
pending (R21, R25, R27, R29, R30, R34, R73). -/
def Obligations.OnlyTheNamedOpcodesWriteARegister : Prop :=
  ∀ (i : Instr) (s t : State), exec i s = .next t →
    (t.psm.result ≠ s.psm.result → i ∈ [.ld, .add, .sub, .one, .nand, .or, .xor]) ∧
    (t.psm.carry ≠ s.psm.carry → i ∈ [.add, .sub, .one]) ∧
    (t.psm.inputEnable ≠ s.psm.inputEnable → i = .ien) ∧
    (t.psm.outputEnable ≠ s.psm.outputEnable → i = .oen) ∧
    (t.psm.dataOut ≠ s.psm.dataOut → i ∈ [.sto, .stoc]) ∧
    (t.psm.skip = true → i = .rtn ∨ i = .skz ∧ s.psm.result = 0#1) ∧
    ((encode i).getLsbD 3 = true → t.psm.result = s.psm.result ∧ t.psm.carry = s.psm.carry)

/-- An instruction touches PSM and the event history only, appends at most one sample and then at most one write, and
keeps every earlier event (R3, R54, R60; R52, with the spec's decision D28). That the sample stands before the write is
DEDUCED from the order of the steps in R63 (log entry 18). -/
def Obligations.InstructionsTouchOnlyPsmAndHistory : Prop :=
  ∀ (i : Instr) (s t : State), exec i s = .next t →
    ∃ sample write : List HistoryEvent,
      t = { s with psm := t.psm, history := s.history ++ sample ++ write } ∧
      (sample = [] ∨ sample = [.sampled s.sr.dataLine]) ∧
      (sample ≠ [] ↔ s.psm.inputEnable = 1#1 ∨ i = .ien) ∧
      (write = [] ∨ write = [.write t.psm.dataOut]) ∧ (write ≠ [] ↔ t.psm.write = true)

/-- With inputs disabled no opcode but IEN sees the data line: the outcome is the same whatever its level (R29; R104, with
the spec's decisions D26, D27 and D29). -/
def Obligations.DisabledInputsHideTheDataLine : Prop :=
  ∀ (i : Instr) (s t : State) (b : Bit), i ≠ .ien → s.psm.inputEnable = 0#1 → exec i s = .next t →
    exec i { s with sr := { s.sr with dataLine := b } } = .next { t with sr := { t.sr with dataLine := b } }

/-- PSM does not read the encoders, and the encoders and the opcode table do not read or change PSM (R3). -/
def Obligations.BlocksDoNotReadEachOther : Prop :=
  (∀ (i : Instr) (s t s' t' : State), exec i s = .next t → exec i s' = .next t' → s'.psm = s.psm →
    s'.sr.dataLine = s.sr.dataLine → t'.psm = t.psm) ∧
  ∀ (c : Call) (s : State) (p : Psm) (h : List HistoryEvent),
    takeCall c { s with psm := p, history := h } =
      ((takeCall c s).1, { (takeCall c s).2 with psm := p, history := h })

/-- IEN with the line at 1, OEN with the line at `v` and ONE, in this order, put the enables, `result`, `carry` and
`skip` at values that do not depend on the state before; `data_out` is unchanged (R245, which the spec marks as derived
from R150, R151 and R133). -/
def Obligations.ThreeInstructionsForgetThePowerOnValues : Prop :=
  ∀ (s : State) (v : Bit), ∃ t u w : State,
    exec .ien { s with sr := { s.sr with dataLine := 1#1 } } = .next t ∧
    exec .oen { t with sr := { t.sr with dataLine := v } } = .next u ∧
    exec .one u = .next w ∧
    w.psm.inputEnable = 1#1 ∧ w.psm.outputEnable = v ∧ w.psm.result = 1#1 ∧ w.psm.carry = 0#1 ∧
    w.psm.skip = false ∧ w.psm.dataOut = s.psm.dataOut

/-! ### The command-stream encoder -/

/-- `select_mode` (R182): a failed encoder raises `SinkWriteFailure`; one that has begun output raises
`ConfigurationOrdering` with the mode requested, even the mode in force; otherwise the mode is set (the spec's decisions
D16 and D23). -/
def Obligations.SelectModeOnlyBeforeOutput : Prop :=
  ∀ (s : State) (m : Mode) (rest : List Call), s.calls = .ceSelectMode m :: rest →
    (s.ce.failed = true → ∃ index, step s = .next { s with
      calls := rest, results := s.results ++ [.raised (.sinkWriteFailure index)] }) ∧
    (s.ce.failed = false → s.ce.started = true → step s = .next { s with
      calls := rest, results := s.results ++ [.raised (.configurationOrdering m)] }) ∧
    (s.ce.failed = false → s.ce.started = false → step s = .next { s with
      calls := rest, ce := { s.ce with mode := m }, results := s.results ++ [.ok] })

/-- `set_data` on an encoder that has not failed: the value is configured; outside `data` mode its character is written
every time, in `data` mode nothing is written and `started` stays (R187). Where that write fails, the encoder has failed
and the caller gets the index of the directive (R194); that it has started is DEDUCED from R183's `put` (log entry 11), and
CE's remaining fields and what its sink has accepted are left open (U3; log entry 9). The spec's decisions D19, D23 and
D25; the counter behind the index is the model's choice, log entry 10. -/
def Obligations.SetDataWritesOutsideDataMode : Prop :=
  ∀ (s : State) (v : Bit) (rest : List Call), s.calls = .ceSetData v :: rest → s.ce.failed = false →
    (s.ce.mode = .data → step s = .next { s with
      calls := rest, ce := { s.ce with dataValue := v, count := s.ce.count + 1 }
      results := s.results ++ [.ok] }) ∧
    (s.ce.mode ≠ .data → s.ceSink.room ≠ some 0 → step s = .next { s with
      calls := rest, ce := { s.ce with dataValue := v, started := true, count := s.ce.count + 1 }
      ceSink := {
        accepted := s.ceSink.accepted ++ [if v = 1#1 then s.alphabet.dataHigh else s.alphabet.dataLow]
        room := s.ceSink.room.map (· - 1) }
      results := s.results ++ [.ok] }) ∧
    (s.ce.mode ≠ .data → s.ceSink.room = some 0 →
      ∃ t, step s = .next t ∧ t.ce.started = true ∧ CommandFailure rest (some s.ce.count) s t)

/-- CE's `emit` with a sink that takes it all writes the block of the mode and, with comments on, the annotation; only
diff mode remembers the opcode (R183, R185, R186; R184 and R188). The orders of the characters and the annotation's layout
are the spec's decisions D11, D12 and D14 (log entry 13); `count` is the model's own (log entry 10). -/
def Obligations.EmitWritesTheBlockOfTheMode : Prop :=
  ∀ (s : State) (op : Opcode) (rest : List Call) (written : List Char),
    s.calls = .ceEmit op :: rest → s.ce.failed = false → written = specEmission s.alphabet s.ce op →
    (∀ room, s.ceSink.room = some room → written.length ≤ room) →
    step s = .next { s with
      calls := rest
      ce := { s.ce with
        prev := if s.ce.mode = .off then op else s.ce.prev, started := true, count := s.ce.count + 1 }
      ceSink := {
        accepted := s.ceSink.accepted ++ written
        room := s.ceSink.room.map (· - written.length) }
      results := s.results ++ [.ok] }

/-- A sink failure in the middle of an instruction: the sink took what it had room for and no more, the encoder has failed,
the caller gets the index of the item, and no other block changes (R194, the spec's decision D19; the index is the model's
counter, log entry 10). That the encoder has started is DEDUCED from R183's `put` (log entry 11). CE's remaining fields and
what the sink counts as accepted are left open (R224, U3; log entry 9). -/
def Obligations.EmitStopsAtTheFailedWrite : Prop :=
  ∀ (s : State) (op : Opcode) (rest : List Call) (room : Nat), s.calls = .ceEmit op :: rest →
    s.ce.failed = false → s.ceSink.room = some room → room < (emission s.alphabet s.ce op).length →
    ∃ t, step s = .next t ∧ t.ce.started = true ∧ t.ceSink.room = some 0 ∧
      CommandFailure rest (some s.ce.count) s t

/-- A failure is sticky: every later operation of the block raises `SinkWriteFailure` again, writes nothing and leaves
the block failed (R224, the spec's decision D19). -/
def Obligations.SinkFailureIsSticky : Prop :=
  (∀ (s : State) (call : Call) (rest : List Call), s.calls = call :: rest → s.re.failed = true →
    (call = .reFinish ∨ ∃ op, call = .reEmit op) →
    ∃ t index, step s = .next t ∧ t.re.failed = true ∧ t.reSink = s.reSink ∧
      t.results = s.results ++ [.raised (.sinkWriteFailure index)]) ∧
  ∀ (s : State) (call : Call) (rest : List Call), s.calls = call :: rest → s.ce.failed = true →
    ((∃ m, call = .ceSelectMode m) ∨ (∃ v, call = .ceSetData v) ∨ ∃ op, call = .ceEmit op) →
    ∃ t index, step s = .next t ∧ t.ce.failed = true ∧ t.ceSink = s.ceSink ∧
      t.results = s.results ++ [.raised (.sinkWriteFailure index)]

/-- The fixed-length modes: `inst` writes five commands an instruction and one for each set-data directive, `data` six an
instruction and none for a directive, whatever the opcodes (R190), into any sink with room for them; annotations, whose
layout is the spec's decision D14 (log entry 13), come on top. A mode selection in the program names the mode in force, or
comes after output has begun and is rejected. -/
def Obligations.FixedLengthCounts : Prop :=
  ∀ (s : State) (items : List Item), s.calls = items.flatMap commandCalls → s.ce.failed = false → s.ce.mode ≠ .off →
    (∀ m, Item.mode m ∈ items → m = s.ce.mode ∨ s.ce.started = true) →
    (∀ room, s.ceSink.room = some room → fixedLength s.ce items ≤ room) →
    ∃ (t : State) (stream : List Char),
      Sys2Proof.core.run items.length s = .next t ∧ t.ce.failed = false ∧
      t.ceSink.accepted = s.ceSink.accepted ++ stream ∧ stream.length = fixedLength s.ce items

/-- Diff mode: a block has one character more than the lines it changes, one to five; a program's stream is never longer
than in `inst` mode, and as long exactly when every instruction differs from its predecessor in all four bits, the first
from NOP0 (R191, which the spec marks as derived from R184 and R185). -/
def Obligations.DiffModeIsNeverLonger : Prop :=
  (∀ (a : Config.Alphabet) (p c : Opcode), (diffBlock a p c).length = changedLines p c + 1 ∧
    1 ≤ (diffBlock a p c).length ∧ (diffBlock a p c).length ≤ 5) ∧
  ∀ (s s' : State) (items : List Item), EncodesCommands s items → EncodesCommands s' items →
    s.ce.mode = .off → s.ce.prev = 0#4 → s'.ce.mode = .inst → s'.ce.comments = s.ce.comments →
    ∃ (t t' : State) (stream stream' : List Char),
      Sys2Proof.core.run items.length s = .next t ∧ t.ceSink.accepted = s.ceSink.accepted ++ stream ∧
      Sys2Proof.core.run items.length s' = .next t' ∧ t'.ceSink.accepted = s'.ceSink.accepted ++ stream' ∧
      stream.length ≤ stream'.length ∧ (stream.length = stream'.length ↔ AllBitsDiffer 0#4 (opcodes items))

/-- With comments off the encoder never writes the quit character (R195, the spec's decision D17): it is in nothing that
`emit` or `set_data` hands to the sink, also where the sink fails, and no step that leaves the encoder unfailed appends it.
What a failed encoder's sink counts as accepted is left open (U3; log entry 9). -/
def Obligations.EncoderNeverWritesQuit : Prop :=
  (∀ (a : Config.Alphabet) (e : CommandEncoder) (op : Opcode) (v : Bit), a.WellFormed → e.comments = false →
    a.quit ∉ emission a e op ∧ a.quit ≠ dataChar a v) ∧
  ∀ s t : State, s.alphabet.WellFormed → s.ce.comments = false → step s = .next t → t.ce.failed = false →
    ∃ new, t.ceSink.accepted = s.ceSink.accepted ++ new ∧ s.alphabet.quit ∉ new

/-! ### The stream reader -/

/-- The line and data commands set the driver's levels and deliver no edge (R204); the model's `position` is left open
here. -/
def Obligations.LineCommandsSetTheLevels : Prop :=
  ∀ (s : State) (rest : List Char), s.alphabet.WellFormed → s.calls = [] → s.sr.pulseHigh = false →
    s.sr.stopped = false → ∃ n : Nat,
    (∀ (k : Fin 4) (high : Bool), s.sr.input = lineChar s.alphabet k high :: rest →
      ∃ v : Opcode, (∀ j : Fin 4, v.getLsbD j = if j = k then high else s.sr.lines.getLsbD j) ∧
        step s = .next { s with sr := { s.sr with input := rest, position := n, lines := v } }) ∧
    (s.sr.input = s.alphabet.dataHigh :: rest →
      step s = .next { s with sr := { s.sr with input := rest, position := n, dataLine := 1#1 } }) ∧
    (s.sr.input = s.alphabet.dataLow :: rest →
      step s = .next { s with sr := { s.sr with input := rest, position := n, dataLine := 0#1 } })

/-- A `;` discards everything up to and with the next line feed, or to the end of the input if there is none; a carriage
return, a space, a TAB and a line feed are discarded alone (R202; R203, the spec's decision D18). That a comment goes in
one step, and how `position` counts, are the model's choice (log entry 16). -/
def Obligations.CommentsAndWhitespaceAreDiscarded : Prop :=
  ∀ (s : State) (rest : List Char), s.calls = [] → s.sr.pulseHigh = false → s.sr.stopped = false →
    (∀ text : List Char, '\n' ∉ text → s.sr.input = ';' :: text ++ '\n' :: rest → step s = .next { s with
      sr := { s.sr with input := rest, position := s.sr.position + (text.length + 2) } }) ∧
    ('\n' ∉ rest → s.sr.input = ';' :: rest → step s = .next { s with
      sr := { s.sr with input := [], position := s.sr.position + (rest.length + 1) } }) ∧
    (∀ c ∈ ['\r', ' ', '\t', '\n'], s.sr.input = c :: rest → step s = .next { s with
      sr := { s.sr with input := rest, position := s.sr.position + 1 } })

/-- The quit character stops the reader; from then on it reads nothing and delivers no edge (R206, the spec's decision
D17). The steps after it are those of the end of a run: they hold the state (log entry 6), or are the fault of an encoder
that has failed (log entry 8). The model's `position` is left open here. -/
def Obligations.QuitStopsTheReader : Prop :=
  ∀ (s : State) (rest : List Char), s.alphabet.WellFormed → s.calls = [] → s.sr.pulseHigh = false →
    s.sr.stopped = false → s.sr.input = s.alphabet.quit :: rest →
    ∃ (t : State) (n : Nat), step s = .next t ∧
      t = { s with sr := { s.sr with input := rest, position := n, stopped := true } } ∧
      (s.re.failed = false → s.ce.failed = false → ∀ k, Sys2Proof.core.run k t = .next t) ∧
      (s.re.failed = true ∨ s.ce.failed = true → ∃ b, step t = .fault (.sinkWriteFailure b))

/-- Any other character outside a comment is refused, with its position (R207, the spec's decision D18; how `position`
counts is the model's choice, log entry 16). -/
def Obligations.UnknownCharacterIsRefused : Prop :=
  ∀ (s : State) (c : Char) (rest : List Char), s.calls = [] → s.sr.pulseHigh = false → s.sr.stopped = false →
    s.sr.input = c :: rest → c ∉ s.alphabet.chars → c ∉ [';', '\r', '\n', ' ', '\t'] →
    step s = .refused (.unknownCommandCharacter s.sr.position c)

/-- The encoder's stream drives the machine as the program says, in every mode, with or without annotations: encode a
program into an empty sink, give the accepted characters to the reader of any state with the same alphabet, and the
reader accepts them all and delivers one clock cycle for each instruction, with that instruction's code on the control
lines and the level of the last set-data directive on the data line (before any, in `data` mode the encoder's configured
value, otherwise the driver's own level). In diff mode the driver's lines must start at the encoder's previous opcode
(R192). R192, R193 and R211 are marked by the spec as derived. That the sample of an edge stands before its write in the
history is DEDUCED from the order of the steps in R63 (log entry 18). The program holds instructions and set-data
directives (a mode selection is SelectModeOnlyBeforeOutput's), and the encoder's sink is without bound. -/
def Obligations.StreamDrivesTheProgram : Prop :=
  ∀ (s u : State) (items : List Item), EncodesCommands s items → s.ceSink.accepted = [] →
    s.alphabet.WellFormed → u.alphabet = s.alphabet → u.calls = [] → u.sr.pulseHigh = false →
    u.sr.stopped = false → (s.ce.mode = .off → u.sr.lines = s.ce.prev) →
    ∃ t, Sys2Proof.core.run items.length s = .next t ∧
      (u.sr.input = t.ceSink.accepted →
        ∃ n v, Sys2Proof.core.run n u = .next v ∧ v.sr.input = [] ∧ v.sr.stopped = false ∧
          v.sr.pulseHigh = false ∧
          (v.psm, v.history) =
            (levels (if s.ce.mode = .data then s.ce.dataValue else u.sr.dataLine) items).foldl clockCycle
              (u.psm, u.history))

/-! ### A failed run -/

/-- A failed encoder makes the run a fault, never a successful end state (R224, the spec's decision D19, with U3; that the
fault is the step at the end of the run is the model's choice, log entry 8). A run keeps the failure; at the end it is the
fault of the failed block, the raw encoder's first; and every run from a failed state, run for long enough, ends in that
fault or in the refusal of its stream. So no judged run ends well in a failed state. -/
def Obligations.FailedRunIsNeverASuccess : Prop :=
  (∀ (s t : State) (n : Nat), Sys2Proof.core.run n s = .next t →
    (s.re.failed = true → t.re.failed = true) ∧ (s.ce.failed = true → t.ce.failed = true)) ∧
  (∀ s : State, AtEnd s → s.re.failed = true → step s = .fault (.sinkWriteFailure .rawEncoder)) ∧
  (∀ s : State, AtEnd s → s.re.failed = false → s.ce.failed = true →
    step s = .fault (.sinkWriteFailure .commandEncoder)) ∧
  (∀ s : State, faulted s = true →
    ∃ n, (∃ b, Sys2Proof.core.run n s = .fault (.sinkWriteFailure b)) ∨
      ∃ k c, Sys2Proof.core.run n s = .refused (.unknownCommandCharacter k c)) ∧
  ∀ (s t : State) (n : Nat), judgedRun n s = .next t → faulted s = false ∧ faulted t = false
end

