-- ==== Sys2Proof/Laws/State.lean ====
section
/-! SUPPORT. What each named update of State does to each field: no later proof unfolds a record update. -/

namespace Sys2Proof.Machine

section
variable (s : State)

@[simp] theorem State.withPsm_psm (p : Psm) : (s.withPsm p).psm = p := rfl
@[simp] theorem State.withPsm_re (p : Psm) : (s.withPsm p).re = s.re := rfl
@[simp] theorem State.withPsm_reSink (p : Psm) : (s.withPsm p).reSink = s.reSink := rfl
@[simp] theorem State.withPsm_ce (p : Psm) : (s.withPsm p).ce = s.ce := rfl
@[simp] theorem State.withPsm_ceSink (p : Psm) : (s.withPsm p).ceSink = s.ceSink := rfl
@[simp] theorem State.withPsm_sr (p : Psm) : (s.withPsm p).sr = s.sr := rfl
@[simp] theorem State.withPsm_calls (p : Psm) : (s.withPsm p).calls = s.calls := rfl
@[simp] theorem State.withPsm_history (p : Psm) : (s.withPsm p).history = s.history := rfl
@[simp] theorem State.withPsm_results (p : Psm) : (s.withPsm p).results = s.results := rfl
@[simp] theorem State.withPsm_alphabet (p : Psm) : (s.withPsm p).alphabet = s.alphabet := rfl
@[simp] theorem State.withPsm_freeIndex (p : Psm) : (s.withPsm p).freeIndex = s.freeIndex := rfl

@[simp] theorem State.record_psm (es : List HistoryEvent) : (s.record es).psm = s.psm := rfl
@[simp] theorem State.record_re (es : List HistoryEvent) : (s.record es).re = s.re := rfl
@[simp] theorem State.record_reSink (es : List HistoryEvent) : (s.record es).reSink = s.reSink := rfl
@[simp] theorem State.record_ce (es : List HistoryEvent) : (s.record es).ce = s.ce := rfl
@[simp] theorem State.record_ceSink (es : List HistoryEvent) : (s.record es).ceSink = s.ceSink := rfl
@[simp] theorem State.record_sr (es : List HistoryEvent) : (s.record es).sr = s.sr := rfl
@[simp] theorem State.record_calls (es : List HistoryEvent) : (s.record es).calls = s.calls := rfl
@[simp] theorem State.record_history (es : List HistoryEvent) : (s.record es).history = s.history ++ es := rfl
@[simp] theorem State.record_results (es : List HistoryEvent) : (s.record es).results = s.results := rfl
@[simp] theorem State.record_alphabet (es : List HistoryEvent) : (s.record es).alphabet = s.alphabet := rfl
@[simp] theorem State.record_freeIndex (es : List HistoryEvent) : (s.record es).freeIndex = s.freeIndex := rfl

@[simp] theorem State.answer_psm (r : CallResult) : (s.answer r).psm = s.psm := rfl
@[simp] theorem State.answer_re (r : CallResult) : (s.answer r).re = s.re := rfl
@[simp] theorem State.answer_reSink (r : CallResult) : (s.answer r).reSink = s.reSink := rfl
@[simp] theorem State.answer_ce (r : CallResult) : (s.answer r).ce = s.ce := rfl
@[simp] theorem State.answer_ceSink (r : CallResult) : (s.answer r).ceSink = s.ceSink := rfl
@[simp] theorem State.answer_sr (r : CallResult) : (s.answer r).sr = s.sr := rfl
@[simp] theorem State.answer_calls (r : CallResult) : (s.answer r).calls = s.calls := rfl
@[simp] theorem State.answer_history (r : CallResult) : (s.answer r).history = s.history := rfl
@[simp] theorem State.answer_results (r : CallResult) : (s.answer r).results = s.results ++ [r] := rfl
@[simp] theorem State.answer_alphabet (r : CallResult) : (s.answer r).alphabet = s.alphabet := rfl
@[simp] theorem State.answer_freeIndex (r : CallResult) : (s.answer r).freeIndex = s.freeIndex := rfl

@[simp] theorem State.withRe_psm (e : RawEncoder) (k : Sink Byte) : (s.withRe e k).psm = s.psm := rfl
@[simp] theorem State.withRe_re (e : RawEncoder) (k : Sink Byte) : (s.withRe e k).re = e := rfl
@[simp] theorem State.withRe_reSink (e : RawEncoder) (k : Sink Byte) : (s.withRe e k).reSink = k := rfl
@[simp] theorem State.withRe_ce (e : RawEncoder) (k : Sink Byte) : (s.withRe e k).ce = s.ce := rfl
@[simp] theorem State.withRe_ceSink (e : RawEncoder) (k : Sink Byte) : (s.withRe e k).ceSink = s.ceSink := rfl
@[simp] theorem State.withRe_sr (e : RawEncoder) (k : Sink Byte) : (s.withRe e k).sr = s.sr := rfl
@[simp] theorem State.withRe_calls (e : RawEncoder) (k : Sink Byte) : (s.withRe e k).calls = s.calls := rfl
@[simp] theorem State.withRe_history (e : RawEncoder) (k : Sink Byte) : (s.withRe e k).history = s.history := rfl
@[simp] theorem State.withRe_results (e : RawEncoder) (k : Sink Byte) : (s.withRe e k).results = s.results := rfl
@[simp] theorem State.withRe_alphabet (e : RawEncoder) (k : Sink Byte) : (s.withRe e k).alphabet = s.alphabet := rfl
@[simp] theorem State.withRe_freeIndex (e : RawEncoder) (k : Sink Byte) : (s.withRe e k).freeIndex = s.freeIndex := rfl

@[simp] theorem State.withCe_psm (e : CommandEncoder) (k : Sink Char) : (s.withCe e k).psm = s.psm := rfl
@[simp] theorem State.withCe_re (e : CommandEncoder) (k : Sink Char) : (s.withCe e k).re = s.re := rfl
@[simp] theorem State.withCe_reSink (e : CommandEncoder) (k : Sink Char) : (s.withCe e k).reSink = s.reSink := rfl
@[simp] theorem State.withCe_ce (e : CommandEncoder) (k : Sink Char) : (s.withCe e k).ce = e := rfl
@[simp] theorem State.withCe_ceSink (e : CommandEncoder) (k : Sink Char) : (s.withCe e k).ceSink = k := rfl
@[simp] theorem State.withCe_sr (e : CommandEncoder) (k : Sink Char) : (s.withCe e k).sr = s.sr := rfl
@[simp] theorem State.withCe_calls (e : CommandEncoder) (k : Sink Char) : (s.withCe e k).calls = s.calls := rfl
@[simp] theorem State.withCe_history (e : CommandEncoder) (k : Sink Char) : (s.withCe e k).history = s.history := rfl
@[simp] theorem State.withCe_results (e : CommandEncoder) (k : Sink Char) : (s.withCe e k).results = s.results := rfl
@[simp] theorem State.withCe_alphabet (e : CommandEncoder) (k : Sink Char) : (s.withCe e k).alphabet = s.alphabet := rfl
@[simp] theorem State.withCe_freeIndex (e : CommandEncoder) (k : Sink Char) : (s.withCe e k).freeIndex = s.freeIndex := rfl

@[simp] theorem State.withSr_psm (r : Reader) : (s.withSr r).psm = s.psm := rfl
@[simp] theorem State.withSr_re (r : Reader) : (s.withSr r).re = s.re := rfl
@[simp] theorem State.withSr_reSink (r : Reader) : (s.withSr r).reSink = s.reSink := rfl
@[simp] theorem State.withSr_ce (r : Reader) : (s.withSr r).ce = s.ce := rfl
@[simp] theorem State.withSr_ceSink (r : Reader) : (s.withSr r).ceSink = s.ceSink := rfl
@[simp] theorem State.withSr_sr (r : Reader) : (s.withSr r).sr = r := rfl
@[simp] theorem State.withSr_calls (r : Reader) : (s.withSr r).calls = s.calls := rfl
@[simp] theorem State.withSr_history (r : Reader) : (s.withSr r).history = s.history := rfl
@[simp] theorem State.withSr_results (r : Reader) : (s.withSr r).results = s.results := rfl
@[simp] theorem State.withSr_alphabet (r : Reader) : (s.withSr r).alphabet = s.alphabet := rfl
@[simp] theorem State.withSr_freeIndex (r : Reader) : (s.withSr r).freeIndex = s.freeIndex := rfl

@[simp] theorem State.withCalls_psm (cs : List Call) : (s.withCalls cs).psm = s.psm := rfl
@[simp] theorem State.withCalls_re (cs : List Call) : (s.withCalls cs).re = s.re := rfl
@[simp] theorem State.withCalls_reSink (cs : List Call) : (s.withCalls cs).reSink = s.reSink := rfl
@[simp] theorem State.withCalls_ce (cs : List Call) : (s.withCalls cs).ce = s.ce := rfl
@[simp] theorem State.withCalls_ceSink (cs : List Call) : (s.withCalls cs).ceSink = s.ceSink := rfl
@[simp] theorem State.withCalls_sr (cs : List Call) : (s.withCalls cs).sr = s.sr := rfl
@[simp] theorem State.withCalls_calls (cs : List Call) : (s.withCalls cs).calls = cs := rfl
@[simp] theorem State.withCalls_history (cs : List Call) : (s.withCalls cs).history = s.history := rfl
@[simp] theorem State.withCalls_results (cs : List Call) : (s.withCalls cs).results = s.results := rfl
@[simp] theorem State.withCalls_alphabet (cs : List Call) : (s.withCalls cs).alphabet = s.alphabet := rfl
@[simp] theorem State.withCalls_freeIndex (cs : List Call) : (s.withCalls cs).freeIndex = s.freeIndex := rfl

@[simp] theorem State.drawFree_psm : s.drawFree.psm = s.psm := rfl
@[simp] theorem State.drawFree_re : s.drawFree.re = s.re := rfl
@[simp] theorem State.drawFree_reSink : s.drawFree.reSink = s.reSink := rfl
@[simp] theorem State.drawFree_ce : s.drawFree.ce = s.ce := rfl
@[simp] theorem State.drawFree_ceSink : s.drawFree.ceSink = s.ceSink := rfl
@[simp] theorem State.drawFree_sr : s.drawFree.sr = s.sr := rfl
@[simp] theorem State.drawFree_calls : s.drawFree.calls = s.calls := rfl
@[simp] theorem State.drawFree_history : s.drawFree.history = s.history := rfl
@[simp] theorem State.drawFree_results : s.drawFree.results = s.results := rfl
@[simp] theorem State.drawFree_alphabet : s.drawFree.alphabet = s.alphabet := rfl
@[simp] theorem State.drawFree_freeIndex : s.drawFree.freeIndex = s.freeIndex + 1 := rfl

end

section
variable (p : Psm) (i : Instr)

@[simp] theorem Psm.lowerPulses_instructionRegister : p.lowerPulses.instructionRegister = p.instructionRegister := rfl
@[simp] theorem Psm.lowerPulses_inputEnable : p.lowerPulses.inputEnable = p.inputEnable := rfl
@[simp] theorem Psm.lowerPulses_outputEnable : p.lowerPulses.outputEnable = p.outputEnable := rfl
@[simp] theorem Psm.lowerPulses_result : p.lowerPulses.result = p.result := rfl
@[simp] theorem Psm.lowerPulses_carry : p.lowerPulses.carry = p.carry := rfl
@[simp] theorem Psm.lowerPulses_skip : p.lowerPulses.skip = p.skip := rfl
@[simp] theorem Psm.lowerPulses_dataOut : p.lowerPulses.dataOut = p.dataOut := rfl
@[simp] theorem Psm.lowerPulses_flag0 : p.lowerPulses.flag0 = false := rfl
@[simp] theorem Psm.lowerPulses_flagF : p.lowerPulses.flagF = false := rfl
@[simp] theorem Psm.lowerPulses_jump : p.lowerPulses.jump = false := rfl
@[simp] theorem Psm.lowerPulses_ret : p.lowerPulses.ret = false := rfl
@[simp] theorem Psm.lowerPulses_write : p.lowerPulses.write = false := rfl

@[simp] theorem Psm.latch_instructionRegister : (p.latch i).instructionRegister = encode i := rfl
@[simp] theorem Psm.latch_inputEnable : (p.latch i).inputEnable = p.inputEnable := rfl
@[simp] theorem Psm.latch_outputEnable : (p.latch i).outputEnable = p.outputEnable := rfl
@[simp] theorem Psm.latch_result : (p.latch i).result = p.result := rfl
@[simp] theorem Psm.latch_carry : (p.latch i).carry = p.carry := rfl
@[simp] theorem Psm.latch_skip : (p.latch i).skip = false := rfl
@[simp] theorem Psm.latch_dataOut : (p.latch i).dataOut = p.dataOut := rfl
@[simp] theorem Psm.latch_flag0 : (p.latch i).flag0 = false := rfl
@[simp] theorem Psm.latch_flagF : (p.latch i).flagF = false := rfl
@[simp] theorem Psm.latch_jump : (p.latch i).jump = false := rfl
@[simp] theorem Psm.latch_ret : (p.latch i).ret = false := rfl
@[simp] theorem Psm.latch_write : (p.latch i).write = false := rfl

end

end Sys2Proof.Machine
end

