-- ==== Sys2Proof/Laws/Ops.lean ====
section
/-! SUPPORT. For each shared operation, what it can do, said once: the rising edge, the sink's writes, the Instruction
Reader, and the driver's turn. -/

namespace Sys2Proof.Machine

/-! ### The data path -/

theorem isHigh_iff (b : Bit) : isHigh b = true ↔ b = 1#1 := by
  simp [isHigh]

theorem decode_encode (i : Instr) : decode (encode i) = i := by
  cases i <;> rfl

theorem encode_decode : ∀ c : Opcode, encode (decode c) = c := by
  decide

/-- The two sum bits hold the exact sum (R26). -/
theorem sum_toNat : ∀ a b c : Bit, (sumResult a b c).toNat + 2 * (sumCarry a b c).toNat = adderSum a b c := by
  decide

/-- `data_in` of every opcode but IEN is gated by `input_enable` (R104). -/
theorem dataIn_gated {i : Instr} (h : i ≠ .ien) (s : State) :
    dataIn i s = if s.psm.inputEnable = 1#1 then s.sr.dataLine else 0#1 := by
  simp [dataIn, samples, isHigh, h]

/-- IEN always samples (R104). -/
theorem dataIn_ien (s : State) : dataIn .ien s = s.sr.dataLine := by
  simp [dataIn, samples]

/-- What a rising edge changes: PSM by the opcode's effect, and the event history at its end. -/
theorem rise_eq (i : Instr) (effect : Bit → Psm → Psm) (s : State) :
    rise i effect s = { s with
      psm := effect (dataIn i s) (s.psm.latch i)
      history := s.history ++ (sampleEvents i s ++ writeEvents (effect (dataIn i s) (s.psm.latch i))) } := rfl

/-- Every meaning is one rising edge with some effect of its own (R105). -/
theorem exec_is_rise (i : Instr) (s : State) : ∃ effect, exec i s = .next (rise i effect s) := by
  cases i <;> exact ⟨_, rfl⟩

/-! ### Sinks -/

/-- A write on a sink with room appends the unit; without room it appends nothing and fails (R58). -/
theorem Sink.put_cases {α : Type} (k : Sink α) (c : α) :
    (k.room = some 0 ∧ k.put c = (false, k)) ∨
    (k.room ≠ some 0 ∧ k.put c = (true, { accepted := k.accepted ++ [c], room := k.room.map (· - 1) })) := by
  obtain ⟨acc, room⟩ := k
  rcases room with _ | _ | n <;> simp [Sink.put]

/-- A sink that never fails accepts every unit in order (R58). -/
theorem Sink.putAll_unbounded {α : Type} (cs : List α) (k : Sink α) (h : k.room = none) :
    Sink.putAll cs k = (true, { accepted := k.accepted ++ cs, room := none }) := by
  induction cs generalizing k with
  | nil => obtain ⟨acc, room⟩ := k; simp_all [Sink.putAll]
  | cons c rest ih => simp [Sink.putAll, Sink.put, h, ih]

/-- A sink with room for `n` more units accepts all of them, or the first `n` and then fails (R58, R183). -/
theorem Sink.putAll_bounded {α : Type} (cs : List α) (k : Sink α) (n : Nat) (h : k.room = some n) :
    Sink.putAll cs k =
      if cs.length ≤ n then (true, { accepted := k.accepted ++ cs, room := some (n - cs.length) })
      else (false, { accepted := k.accepted ++ cs.take n, room := some 0 }) := by
  induction cs generalizing k n with
  | nil => obtain ⟨acc, room⟩ := k; simp_all [Sink.putAll]
  | cons c rest ih =>
    rcases n with _ | n
    · obtain ⟨acc, room⟩ := k; simp_all [Sink.putAll, Sink.put]
    · rw [Sink.putAll, Sink.put, h]
      simp only
      rw [ih _ n rfl]
      simp

/-- A sink with room for all the units accepts them in order (R58). -/
theorem Sink.putAll_fits {α : Type} (cs : List α) (k : Sink α) (h : ∀ n, k.room = some n → cs.length ≤ n) :
    Sink.putAll cs k = (true, { accepted := k.accepted ++ cs, room := k.room.map (· - cs.length) }) := by
  rcases hr : k.room with _ | n
  · rw [Sink.putAll_unbounded cs k hr]; rfl
  · rw [Sink.putAll_bounded cs k n hr, if_pos (h n hr)]; rfl

/-- Where every write succeeded, the sink has accepted all the units in order (R58). -/
theorem Sink.putAll_true {α : Type} {cs : List α} {k k' : Sink α} (h : Sink.putAll cs k = (true, k')) :
    k'.accepted = k.accepted ++ cs := by
  rcases hr : k.room with _ | n
  · rw [Sink.putAll_unbounded cs k hr] at h
    cases h; rfl
  · rw [Sink.putAll_bounded cs k n hr] at h
    split at h <;> cases h; rfl

/-- Where a write failed, the sink takes no more (R58, R224). -/
theorem Sink.putAll_false {α : Type} {cs : List α} {k k' : Sink α} (h : Sink.putAll cs k = (false, k')) :
    k'.room = some 0 := by
  rcases hr : k.room with _ | n
  · rw [Sink.putAll_unbounded cs k hr] at h
    cases h
  · rw [Sink.putAll_bounded cs k n hr] at h
    split at h <;> cases h; rfl

/-! ### The Instruction Reader and the driver's turn -/

theorem fetch_of_skip {s : State} (h : s.psm.skip = true) : fetch s = .nopf := by
  have : ∀ c : Opcode, decode (c ||| 15#4) = .nopf := by decide
  simp [fetch, candidate, h, this]

theorem fetch_of_no_skip {s : State} (h : s.psm.skip = false) : fetch s = decode s.sr.lines := by
  simp [fetch, candidate, h]

/-- A pending call is taken before the reader's input (log entry 4). -/
theorem driverTurn_call {s : State} {c : Call} {rest : List Call} (h : s.calls = c :: rest) :
    driverTurn s = takeCall c (s.withCalls rest) := by
  simp [driverTurn, h]

theorem driverTurn_reader {s : State} (h : s.calls = []) : driverTurn s = readerTurn s := by
  simp [driverTurn, h]

theorem step_rising {s : State} {rest : List Call} (h : s.calls = .risingEdge :: rest) :
    step s = exec (fetch (s.withCalls rest)) (s.withCalls rest) := by
  simp [step, driverTurn_call h, takeCall]

/-- A falling edge lowers the five pulses and changes nothing else (R110). -/
theorem fallingEdge_eq (s : State) : fallingEdge s = { s with
    psm := { s.psm with flag0 := false, flagF := false, jump := false, ret := false, write := false } } := rfl

/-- A state with an opcode driven fetches its instruction (log entry 5). -/
theorem fetch_driveOpcode (s : State) (c : Opcode) : fetch (s.driveOpcode c) = decode c :=
  fetch_of_no_skip rfl

theorem step_falling {s : State} {rest : List Call} (h : s.calls = .fallingEdge :: rest) :
    step s = .next (fallingEdge (s.withCalls rest)) := by
  simp [step, driverTurn_call h, takeCall]

/-- What a step can be: an instruction's rising edge, a falling edge, a turn without an edge, the end of a run, or a
refusal. -/
theorem step_cases (s : State) :
    ((driverTurn s).1 = .rising ∧ step s = exec (fetch (driverTurn s).2) (driverTurn s).2) ∨
    ((driverTurn s).1 = .falling ∧ step s = .next (fallingEdge (driverTurn s).2)) ∨
    ((driverTurn s).1 = .quiet ∧ step s = .next (driverTurn s).2) ∨
    ((driverTurn s).1 = .ended ∧ step s = endOfRun (driverTurn s).2) ∨
    ∃ r, (driverTurn s).1 = .refuse r ∧ step s = .refused r := by
  unfold step
  rcases h : driverTurn s with ⟨_ | _ | _ | _ | r, t⟩ <;> simp

end Sys2Proof.Machine
end

