-- ==== Sys2Proof/Laws/Driver.lean ====
section
/-! SUPPORT. What the encoders' operations and the driver's turn can do and what they leave alone. -/

namespace Sys2Proof.Machine

/-! ### Frames: no encoder or table operation touches PSM, the history, the reader, the calls or the alphabet -/

/-- The parts of the state that the encoders and the opcode table never touch (R3). -/
def SameOutsideEncoders (s t : State) : Prop :=
  t.psm = s.psm ∧ t.history = s.history ∧ t.sr = s.sr ∧ t.calls = s.calls ∧ t.alphabet = s.alphabet

/-- What a sink failure of RE does: it sets `failed`, answers the error, and touches nothing outside RE (R178). -/
theorem reFail_spec (e : RawEncoder) (k : Sink Byte) (n : Nat) (s : State) :
    SameOutsideEncoders s (reFail e k n s) ∧ (reFail e k n s).ce = s.ce ∧ (reFail e k n s).ceSink = s.ceSink ∧
    (reFail e k n s).re.failed = true ∧ (reFail e k n s).re.count = e.count ∧
    (reFail e k n s).reSink.room = k.room ∧
    (reFail e k n s).results = s.results ++ [.raised (.sinkWriteFailure (some n))] := by
  simp [reFail, SameOutsideEncoders]

theorem reWrite_frame (e : RawEncoder) (b : Byte) (n : Nat) (s : State) :
    SameOutsideEncoders s (reWrite e b n s) ∧ (reWrite e b n s).ce = s.ce ∧ (reWrite e b n s).ceSink = s.ceSink := by
  unfold reWrite
  rcases Sink.put_cases s.reSink b with ⟨_, h⟩ | ⟨_, h⟩ <;> rw [h]
  · have f := reFail_spec e s.reSink n s
    exact ⟨f.1, f.2.1, f.2.2.1⟩
  · simp [SameOutsideEncoders]

theorem reEmit_frame (op : Opcode) (s : State) :
    SameOutsideEncoders s (reEmit op s) ∧ (reEmit op s).ce = s.ce ∧ (reEmit op s).ceSink = s.ceSink := by
  unfold reEmit
  split
  · simp [SameOutsideEncoders]
  · split
    · exact reWrite_frame _ _ _ _
    · simp [SameOutsideEncoders]

theorem reFinish_frame (s : State) :
    SameOutsideEncoders s (reFinish s) ∧ (reFinish s).ce = s.ce ∧ (reFinish s).ceSink = s.ceSink := by
  unfold reFinish
  split
  · simp [SameOutsideEncoders]
  · split
    · exact reWrite_frame _ _ _ _
    · simp [SameOutsideEncoders]

/-- What a sink failure of CE does: it sets `failed` and `started`, answers the error, and touches nothing outside CE
(R183, R194). -/
theorem ceFail_spec (e : CommandEncoder) (k : Sink Char) (n : Nat) (s : State) :
    SameOutsideEncoders s (ceFail e k n s) ∧ (ceFail e k n s).re = s.re ∧ (ceFail e k n s).reSink = s.reSink ∧
    (ceFail e k n s).ce.started = true ∧ (ceFail e k n s).ce.failed = true ∧ (ceFail e k n s).ce.count = e.count ∧
    (ceFail e k n s).ce.comments = e.comments ∧ (ceFail e k n s).ceSink.room = k.room ∧
    (ceFail e k n s).results = s.results ++ [.raised (.sinkWriteFailure (some n))] := by
  simp [ceFail, SameOutsideEncoders]

/-- What a write of CE does: it starts the encoder and touches nothing outside CE; either all characters were accepted and
the encoder is the one given, or it has failed (R183, R194). -/
theorem ceWrite_spec (e : CommandEncoder) (cs : List Char) (n : Nat) (s : State) :
    SameOutsideEncoders s (ceWrite e cs n s) ∧ (ceWrite e cs n s).re = s.re ∧
    (ceWrite e cs n s).reSink = s.reSink ∧ (ceWrite e cs n s).ce.started = true ∧
    ((ceWrite e cs n s).ce = { e with started := true } ∧
        (ceWrite e cs n s).ceSink.accepted = s.ceSink.accepted ++ cs ∨
      (ceWrite e cs n s).ce.failed = true) := by
  unfold ceWrite
  rcases h : Sink.putAll cs s.ceSink with ⟨_ | _, k⟩
  · have f := ceFail_spec e k n s
    exact ⟨f.1, f.2.1, f.2.2.1, f.2.2.2.1, .inr f.2.2.2.2.1⟩
  · simp [SameOutsideEncoders, Sink.putAll_true h]

/-- A write of CE into a sink that never fails (R58, R183). -/
theorem ceWrite_unbounded (e : CommandEncoder) (cs : List Char) (n : Nat) (s : State) (h : s.ceSink.room = none) :
    ceWrite e cs n s = (s.withCe { e with started := true }
      { accepted := s.ceSink.accepted ++ cs, room := none }).answer .ok := by
  simp [ceWrite, Sink.putAll_unbounded cs s.ceSink h]

theorem ceSelectMode_frame (m : Mode) (s : State) :
    SameOutsideEncoders s (ceSelectMode m s) ∧ (ceSelectMode m s).ceSink = s.ceSink ∧
    (ceSelectMode m s).ce.started = s.ce.started ∧ (ceSelectMode m s).ce.failed = s.ce.failed := by
  unfold ceSelectMode
  split
  · simp [SameOutsideEncoders]
  · split <;> simp [SameOutsideEncoders]

/-- What `set_data` and `emit` of CE can do to the encoder and its sink: nothing that shows (a failed encoder, or a value
absorbed in `data` mode), or a write that starts the encoder (R183, R187, R194). -/
theorem ceSetData_spec (v : Bit) (s : State) :
    SameOutsideEncoders s (ceSetData v s) ∧
    (((ceSetData v s).ceSink = s.ceSink ∧ (ceSetData v s).ce.started = s.ce.started ∧
        (ceSetData v s).ce.failed = s.ce.failed) ∨
      (ceSetData v s).ce.started = true ∧
        ((ceSetData v s).ceSink.accepted = s.ceSink.accepted ++ [dataChar s.alphabet v] ∨
          (ceSetData v s).ce.failed = true)) := by
  unfold ceSetData
  split
  · simp [SameOutsideEncoders]
  · split
    · simp [SameOutsideEncoders]
    · have h := ceWrite_spec { s.ce with count := s.ce.count + 1, dataValue := v } [dataChar s.alphabet v] s.ce.count s
      exact ⟨h.1, .inr ⟨h.2.2.2.1, h.2.2.2.2.imp_left And.right⟩⟩

theorem ceEmit_spec (op : Opcode) (s : State) :
    SameOutsideEncoders s (ceEmit op s) ∧
    (((ceEmit op s).ceSink = s.ceSink ∧ (ceEmit op s).ce.started = s.ce.started ∧
        (ceEmit op s).ce.failed = s.ce.failed) ∨
      (ceEmit op s).ce.started = true ∧
        ((ceEmit op s).ceSink.accepted = s.ceSink.accepted ++ emission s.alphabet s.ce op ∨
          (ceEmit op s).ce.failed = true)) := by
  unfold ceEmit
  split
  · simp [SameOutsideEncoders]
  · have h := ceWrite_spec
      { s.ce with count := s.ce.count + 1, prev := if s.ce.mode = .off then op else s.ce.prev }
      (emission s.alphabet s.ce op) s.ce.count s
    exact ⟨h.1, .inr ⟨h.2.2.2.1, h.2.2.2.2.imp_left And.right⟩⟩

/-- CE's operations leave RE and its sink alone (R3). -/
theorem ceSelectMode_re (m : Mode) (s : State) :
    (ceSelectMode m s).re = s.re ∧ (ceSelectMode m s).reSink = s.reSink := by
  unfold ceSelectMode
  split
  · simp
  · split <;> simp

theorem ceSetData_re (v : Bit) (s : State) : (ceSetData v s).re = s.re ∧ (ceSetData v s).reSink = s.reSink := by
  unfold ceSetData
  split
  · simp
  · split
    · simp
    · exact ⟨(ceWrite_spec _ _ _ _).2.1, (ceWrite_spec _ _ _ _).2.2.1⟩

theorem ceEmit_re (op : Opcode) (s : State) : (ceEmit op s).re = s.re ∧ (ceEmit op s).reSink = s.reSink := by
  unfold ceEmit
  split
  · simp
  · exact ⟨(ceWrite_spec _ _ _ _).2.1, (ceWrite_spec _ _ _ _).2.2.1⟩

/-- Emitting from an encoder that has not failed into a sink that never fails (R183). -/
theorem ceEmit_unbounded (op : Opcode) (s : State) (hf : s.ce.failed = false) (hr : s.ceSink.room = none) :
    ceEmit op s = (s.withCe { s.ce with
        count := s.ce.count + 1, prev := if s.ce.mode = .off then op else s.ce.prev, started := true }
      { accepted := s.ceSink.accepted ++ emission s.alphabet s.ce op, room := none }).answer .ok := by
  simp [ceEmit, hf, ceWrite_unbounded _ _ _ _ hr]

/-- `set_data` on an encoder that has not failed with a sink that never fails (R187). -/
theorem ceSetData_unbounded (v : Bit) (s : State) (hf : s.ce.failed = false) (hr : s.ceSink.room = none) :
    ceSetData v s = (s.withCe { s.ce with
        count := s.ce.count + 1, dataValue := v, started := s.ce.started || s.ce.mode != .data }
      { accepted := s.ceSink.accepted ++ (if s.ce.mode = .data then [] else [dataChar s.alphabet v])
        room := none }).answer .ok := by
  have hk : s.ceSink = { accepted := s.ceSink.accepted, room := none } := by rw [← hr]
  unfold ceSetData
  rw [if_neg (by simp [hf])]
  rcases hm : s.ce.mode with _ | _ | _ <;>
    simp [ceWrite_unbounded _ _ _ _ hr, State.withCe, State.answer, ← hk, hm]

/-- Emitting from an encoder that has not failed into a sink with room for the block and the annotation (R183). -/
theorem ceEmit_fits (op : Opcode) (s : State) (hf : s.ce.failed = false)
    (hr : ∀ n, s.ceSink.room = some n → (emission s.alphabet s.ce op).length ≤ n) :
    ceEmit op s = (s.withCe { s.ce with
        count := s.ce.count + 1, prev := if s.ce.mode = .off then op else s.ce.prev, started := true }
      { accepted := s.ceSink.accepted ++ emission s.alphabet s.ce op
        room := s.ceSink.room.map (· - (emission s.alphabet s.ce op).length) }).answer .ok := by
  simp [ceEmit, hf, ceWrite, Sink.putAll_fits _ _ hr]

/-- `set_data` outside `data` mode, on an encoder that has not failed, into a sink with room for its character (R187). -/
theorem ceSetData_fits (v : Bit) (s : State) (hf : s.ce.failed = false) (hm : s.ce.mode ≠ .data)
    (hr : s.ceSink.room ≠ some 0) :
    ceSetData v s = (s.withCe { s.ce with count := s.ce.count + 1, dataValue := v, started := true }
      { accepted := s.ceSink.accepted ++ [dataChar s.alphabet v], room := s.ceSink.room.map (· - 1) }).answer .ok := by
  have h := Sink.putAll_fits [dataChar s.alphabet v] s.ceSink fun n hn => by
    rcases n with _ | n
    · exact absurd hn hr
    · simp
  unfold ceSetData
  rw [if_neg (by simp [hf])]
  rcases hmm : s.ce.mode with _ | _ | _
  · simp [ceWrite, h, hmm]
  · simp [ceWrite, h, hmm]
  · exact absurd hmm hm

/-! ### A failure is sticky (R224) -/

theorem reEmit_failed {op : Opcode} {s : State} (h : s.re.failed = true) : (reEmit op s).re.failed = true := by
  simp [reEmit, h]

theorem reFinish_failed {s : State} (h : s.re.failed = true) : (reFinish s).re.failed = true := by
  simp [reFinish, h]

theorem ceSelectMode_failed {m : Mode} {s : State} (h : s.ce.failed = true) : (ceSelectMode m s).ce.failed = true := by
  simp [ceSelectMode, h]

theorem ceSetData_failed {v : Bit} {s : State} (h : s.ce.failed = true) : (ceSetData v s).ce.failed = true := by
  simp [ceSetData, h]

theorem ceEmit_failed {op : Opcode} {s : State} (h : s.ce.failed = true) : (ceEmit op s).ce.failed = true := by
  simp [ceEmit, h]

/-! ### The driver's turn -/

/-- What is left in the encoders by a turn that reads no call: everything (R3). -/
theorem readerTurn_encoders (s : State) :
    (readerTurn s).2.re = s.re ∧ (readerTurn s).2.ce = s.ce ∧ (readerTurn s).2.calls = s.calls := by
  unfold readerTurn
  split
  · simp
  · split
    · simp
    · split
      · simp
      · unfold readChar
        split
        · simp
        · split
          · simp
          · split
            · rename_i k _
              cases k <;> simp [obey]
            · simp

theorem lookupCall_frame (name : List Char) (s : State) :
    lookupCall name s = { s with results := (lookupCall name s).results } := by
  unfold lookupCall
  split <;> rfl

/-- Reading a character never ends the run. -/
theorem readChar_not_ended (c : Char) (rest : List Char) (s : State) : (readChar c rest s).1 ≠ .ended := by
  unfold readChar
  split
  · simp
  · split
    · simp
    · split
      · rename_i k _
        cases k <;> simp [obey]
      · simp

/-- A turn in which no call is pending changes nothing but the reader; a quiet or refused turn that takes a call changes
neither PSM nor its history (R3, R100, R204). -/
theorem driverTurn_psm (s : State) :
    (driverTurn s).2.psm = s.psm ∧ (driverTurn s).2.history = s.history ∧
      (driverTurn s).2.alphabet = s.alphabet := by
  rcases hc : s.calls with _ | ⟨c, rest⟩
  · rw [driverTurn_reader hc]
    unfold readerTurn
    split
    · simp
    · split
      · simp
      · split
        · simp
        · unfold readChar
          split
          · simp
          · split
            · simp
            · split
              · rename_i k _
                cases k <;> simp [obey]
              · simp
  · rw [driverTurn_call hc]
    cases c <;> simp only [takeCall]
    case lookup name => rw [lookupCall_frame]; simp
    case reEmit op => have h := (reEmit_frame op (s.withCalls rest)).1; simpa using ⟨h.1, h.2.1, h.2.2.2.2⟩
    case reFinish => have h := (reFinish_frame (s.withCalls rest)).1; simpa using ⟨h.1, h.2.1, h.2.2.2.2⟩
    case ceSelectMode m => have h := (ceSelectMode_frame m (s.withCalls rest)).1; simpa using ⟨h.1, h.2.1, h.2.2.2.2⟩
    case ceSetData v => have h := (ceSetData_spec v (s.withCalls rest)).1; simpa using ⟨h.1, h.2.1, h.2.2.2.2⟩
    case ceEmit op => have h := (ceEmit_spec op (s.withCalls rest)).1; simpa using ⟨h.1, h.2.1, h.2.2.2.2⟩
    case assembleRaw name =>
      unfold assembleRaw
      split
      · rename_i r _
        have h := (reEmit_frame r.code (s.withCalls rest)).1; simpa using ⟨h.1, h.2.1, h.2.2.2.2⟩
      · simp
    case assembleCommand name =>
      unfold assembleCommand
      split
      · rename_i r _
        have h := (ceEmit_spec r.code (s.withCalls rest)).1; simpa using ⟨h.1, h.2.1, h.2.2.2.2⟩
      · simp
    all_goals simp

/-- No turn of the driver clears a failure (R224). -/
theorem driverTurn_failed (s : State) :
    (s.re.failed = true → (driverTurn s).2.re.failed = true) ∧
      (s.ce.failed = true → (driverTurn s).2.ce.failed = true) := by
  rcases hc : s.calls with _ | ⟨c, rest⟩
  · rw [driverTurn_reader hc]
    have h := readerTurn_encoders s
    rw [h.1, h.2.1]
    exact ⟨id, id⟩
  · rw [driverTurn_call hc]
    cases c <;> simp only [takeCall]
    case lookup name => rw [lookupCall_frame]; exact ⟨id, id⟩
    case reEmit op => exact ⟨fun h => reEmit_failed h, fun h => by rw [(reEmit_frame _ _).2.1]; exact h⟩
    case reFinish => exact ⟨fun h => reFinish_failed h, fun h => by rw [(reFinish_frame _).2.1]; exact h⟩
    case ceSelectMode m =>
      exact ⟨fun h => by rw [(ceSelectMode_re _ _).1]; exact h, fun h => ceSelectMode_failed h⟩
    case ceSetData v => exact ⟨fun h => by rw [(ceSetData_re _ _).1]; exact h, fun h => ceSetData_failed h⟩
    case ceEmit op => exact ⟨fun h => by rw [(ceEmit_re _ _).1]; exact h, fun h => ceEmit_failed h⟩
    case assembleRaw name =>
      unfold assembleRaw
      split
      · exact ⟨fun h => reEmit_failed h, fun h => by rw [(reEmit_frame _ _).2.1]; exact h⟩
      · exact ⟨id, id⟩
    case assembleCommand name =>
      unfold assembleCommand
      split
      · exact ⟨fun h => by rw [(ceEmit_re _ _).1]; exact h, fun h => ceEmit_failed h⟩
      · exact ⟨id, id⟩
    all_goals exact ⟨id, id⟩

/-! ### The end of a run -/

/-- What the end of a run can be: a fault where an encoder has failed, else the state as it is (R208, R224). -/
theorem endOfRun_cases (s : State) :
    ((s.re.failed = true ∨ s.ce.failed = true) ∧ endOfRun s = .fault (.sinkWriteFailure
        (if s.re.failed = true then .rawEncoder else .commandEncoder))) ∨
    (s.re.failed = false ∧ s.ce.failed = false ∧ endOfRun s = .next s) := by
  unfold endOfRun
  cases s.re.failed <;> cases s.ce.failed <;> simp

/-- A turn ends the run exactly where nothing is left to do, and changes nothing (R206, R208). -/
theorem driverTurn_ended {s : State} (h : (driverTurn s).1 = .ended) :
    s.calls = [] ∧ s.sr.pulseHigh = false ∧ (s.sr.stopped = true ∨ s.sr.input = []) ∧ (driverTurn s).2 = s := by
  rcases hc : s.calls with _ | ⟨c, rest⟩
  · rw [driverTurn_reader hc] at h ⊢
    unfold readerTurn at h ⊢
    split
    · rename_i hp; simp [hp] at h
    · rename_i hp
      rw [if_neg hp] at h
      split
      · rename_i hs; exact ⟨rfl, by simpa using hp, .inl hs, rfl⟩
      · rename_i hs
        rw [if_neg hs] at h
        rcases hi : s.sr.input with _ | ⟨c, rest⟩
        · exact ⟨rfl, by simpa using hp, .inr rfl, by simp⟩
        · rw [hi] at h
          exact absurd h (readChar_not_ended c rest s)
  · rw [driverTurn_call hc] at h
    cases c <;> simp [takeCall] at h

end Sys2Proof.Machine
end

