-- ==== Sys2Proof/Laws/PerInstr.lean ====
section
/-! SUPPORT. Statements made per instruction, one lemma per constructor of Instr. -/

namespace Sys2Proof.Laws

/-- The table word of an instruction decodes to it (R70). -/
def RoundTrip.Statement (i : Instr) : Prop := decodeTableWord 8 (encode i).toNat = some i

theorem RoundTrip.nop0 : RoundTrip.Statement .nop0 := rfl
theorem RoundTrip.ld : RoundTrip.Statement .ld := rfl
theorem RoundTrip.add : RoundTrip.Statement .add := rfl
theorem RoundTrip.sub : RoundTrip.Statement .sub := rfl
theorem RoundTrip.one : RoundTrip.Statement .one := rfl
theorem RoundTrip.nand : RoundTrip.Statement .nand := rfl
theorem RoundTrip.or : RoundTrip.Statement .or := rfl
theorem RoundTrip.xor : RoundTrip.Statement .xor := rfl
theorem RoundTrip.sto : RoundTrip.Statement .sto := rfl
theorem RoundTrip.stoc : RoundTrip.Statement .stoc := rfl
theorem RoundTrip.ien : RoundTrip.Statement .ien := rfl
theorem RoundTrip.oen : RoundTrip.Statement .oen := rfl
theorem RoundTrip.jmp : RoundTrip.Statement .jmp := rfl
theorem RoundTrip.rtn : RoundTrip.Statement .rtn := rfl
theorem RoundTrip.skz : RoundTrip.Statement .skz := rfl
theorem RoundTrip.nopf : RoundTrip.Statement .nopf := rfl

end Sys2Proof.Laws
end

