-- ==== Sys2Proof/Laws/Run.lean ====
section
/-! SUPPORT. Runs of several steps, and what the driver's calls to the encoders do in such a run. -/

namespace Sys2Proof.Machine

theorem run_zero (s : State) : Sys2Proof.core.run 0 s = .next s := rfl

/-- A run's first step. -/
theorem run_succ {s t : State} (n : Nat) (h : step s = .next t) :
    Sys2Proof.core.run (n + 1) s = Sys2Proof.core.run n t := by
  have e : Sys2Proof.core.step s = .next t := h
  simp only [Host.Core.run, e]

/-- A run whose first step faults or is refused ends there. -/
theorem run_fault {s : State} {r : Fault} (n : Nat) (h : step s = .fault r) :
    Sys2Proof.core.run (n + 1) s = .fault r := by
  have e : Sys2Proof.core.step s = .fault r := h
  simp only [Host.Core.run, e]

theorem run_refused {s : State} {r : Refusal} (n : Nat) (h : step s = .refused r) :
    Sys2Proof.core.run (n + 1) s = .refused r := by
  have e : Sys2Proof.core.step s = .refused r := h
  simp only [Host.Core.run, e]

/-- Two runs in a row. -/
theorem run_add {s t : State} (m n : Nat) (h : Sys2Proof.core.run m s = .next t) :
    Sys2Proof.core.run (m + n) s = Sys2Proof.core.run n t := by
  induction m generalizing s with
  | zero => cases h; simp
  | succ m ih =>
    rw [Nat.succ_add]
    cases e : Sys2Proof.core.step s with
    | next u =>
      simp only [Host.Core.run, e] at h ⊢
      exact ih h
    | fault r => simp [Host.Core.run, e] at h
    | refused r => simp [Host.Core.run, e] at h

/-- The last step of a run is a step from the state before it. -/
theorem run_inv {s t : State} (n : Nat) (h : Sys2Proof.core.run (n + 1) s = .next t) :
    ∃ u, step s = .next u ∧ Sys2Proof.core.run n u = .next t := by
  cases e : Sys2Proof.core.step s with
  | next u => exact ⟨u, e, by simpa [Host.Core.run, e] using h⟩
  | fault r => simp [Host.Core.run, e] at h
  | refused r => simp [Host.Core.run, e] at h

/-- What every step keeps, every run keeps. -/
theorem run_keeps {P : State → Prop} (keeps : ∀ s t, P s → step s = .next t → P t) {s t : State} (n : Nat)
    (hs : P s) (h : Sys2Proof.core.run n s = .next t) : P t := by
  induction n generalizing s with
  | zero => cases h; exact hs
  | succ n ih =>
    obtain ⟨u, h1, h2⟩ := run_inv n h
    exact ih (keeps s u hs h1) h2

theorem step_reEmit {s : State} {op : Opcode} {rest : List Call} (h : s.calls = .reEmit op :: rest) :
    step s = .next (reEmit op (s.withCalls rest)) := by
  simp [step, driverTurn_call h, takeCall]

theorem step_reFinish {s : State} {rest : List Call} (h : s.calls = .reFinish :: rest) :
    step s = .next (reFinish (s.withCalls rest)) := by
  simp [step, driverTurn_call h, takeCall]

theorem step_ceEmit {s : State} {op : Opcode} {rest : List Call} (h : s.calls = .ceEmit op :: rest) :
    step s = .next (ceEmit op (s.withCalls rest)) := by
  simp [step, driverTurn_call h, takeCall]

theorem step_ceSetData {s : State} {v : Bit} {rest : List Call} (h : s.calls = .ceSetData v :: rest) :
    step s = .next (ceSetData v (s.withCalls rest)) := by
  simp [step, driverTurn_call h, takeCall]

theorem step_ceSelectMode {s : State} {m : Mode} {rest : List Call} (h : s.calls = .ceSelectMode m :: rest) :
    step s = .next (ceSelectMode m (s.withCalls rest)) := by
  simp [step, driverTurn_call h, takeCall]

/-- Where no call is pending and the reader is between two characters, a step reads one (R200). -/
theorem step_readChar {s : State} {c : Char} {rest : List Char} (h1 : s.calls = []) (h2 : s.sr.pulseHigh = false)
    (h3 : s.sr.stopped = false) (h4 : s.sr.input = c :: rest) : driverTurn s = readChar c rest s := by
  simp [driverTurn_reader h1, readerTurn, h2, h3, h4]

/-! ### Every run comes to its end -/

/-- A bound on the steps before a run ends: a call is one, a character at most two, a clock pulse under way one. -/
def workLeft (s : State) : Nat := s.calls.length + 2 * s.sr.input.length + s.sr.pulseHigh.toNat

theorem dropComment_length (cs : List Char) : (dropComment cs).length ≤ cs.length := by
  induction cs with
  | nil => simp [dropComment]
  | cons c rest ih =>
    unfold dropComment
    split
    · simp
    · simp only [List.length_cons]; omega

/-- A call in hand, a turn takes it and nothing else off the driver's list and leaves the reader's input (log entry 4). -/
theorem takeCall_reader (c : Call) (s : State) :
    (takeCall c s).2.calls = s.calls ∧ (takeCall c s).2.sr.input = s.sr.input ∧
      (takeCall c s).2.sr.pulseHigh = s.sr.pulseHigh := by
  cases c <;> simp only [takeCall]
  case lookup name => rw [lookupCall_frame]; simp
  case reEmit op => have h := (reEmit_frame op s).1; simp [h.2.2.1, h.2.2.2.1]
  case reFinish => have h := (reFinish_frame s).1; simp [h.2.2.1, h.2.2.2.1]
  case ceSelectMode m => have h := (ceSelectMode_frame m s).1; simp [h.2.2.1, h.2.2.2.1]
  case ceSetData v => have h := (ceSetData_spec v s).1; simp [h.2.2.1, h.2.2.2.1]
  case ceEmit op => have h := (ceEmit_spec op s).1; simp [h.2.2.1, h.2.2.2.1]
  case assembleRaw name =>
    unfold assembleRaw
    split
    · rename_i r _; have h := (reEmit_frame r.code s).1; simp [h.2.2.1, h.2.2.2.1]
    · simp
  case assembleCommand name =>
    unfold assembleCommand
    split
    · rename_i r _; have h := (ceEmit_spec r.code s).1; simp [h.2.2.1, h.2.2.2.1]
    · simp
  all_goals simp

/-- Reading a character refuses it or leaves less to do. -/
theorem readChar_progress {c : Char} {rest : List Char} {s : State} (hp : s.sr.pulseHigh = false)
    (hi : s.sr.input = c :: rest) :
    (∃ r, (readChar c rest s).1 = .refuse r) ∨ workLeft (readChar c rest s).2 < workLeft s := by
  have hd := dropComment_length rest
  unfold readChar
  split
  · right; simp [workLeft, Reader.advance, hp, hi]; omega
  · split
    · right; simp [workLeft, Reader.advance, hp, hi]
    · split
      · rename_i k _
        right
        cases k <;> simp [obey, workLeft, Reader.advance, hp, hi]
        omega
      · exact .inl ⟨_, rfl⟩

/-- A turn ends the run, refuses the stream, or leaves less to do. -/
theorem driverTurn_progress (s : State) :
    (driverTurn s).1 = .ended ∨ (∃ r, (driverTurn s).1 = .refuse r) ∨ workLeft (driverTurn s).2 < workLeft s := by
  rcases hc : s.calls with _ | ⟨c, rest⟩
  · rw [driverTurn_reader hc]
    unfold readerTurn
    split
    · rename_i hp; right; right; simp [workLeft, hp]
    · rename_i hp
      split
      · exact .inl rfl
      · rcases hi : s.sr.input with _ | ⟨c, rest⟩
        · exact .inl rfl
        · exact .inr (readChar_progress (by simpa using hp) hi)
  · rw [driverTurn_call hc]
    have h := takeCall_reader c (s.withCalls rest)
    right; right
    simp [workLeft, h, hc]

/-- An instruction leaves the driver and the encoders alone (R3). -/
theorem exec_frame {i : Instr} {s t : State} (h : exec i s = .next t) :
    t.re = s.re ∧ t.reSink = s.reSink ∧ t.ce = s.ce ∧ t.ceSink = s.ceSink ∧ t.sr = s.sr ∧ t.calls = s.calls := by
  obtain ⟨f, e⟩ := exec_is_rise i s
  rw [e] at h
  cases h
  simp [rise]

/-- What a step that answers a next state can be, seen from the driver: the turn's state with the same encoders, driver
and reader; or the end of a run in which nothing has failed, the state as it was. -/
theorem step_next_cases {s t : State} (h : step s = .next t) :
    (t.re = (driverTurn s).2.re ∧ t.ce = (driverTurn s).2.ce ∧ t.ceSink = (driverTurn s).2.ceSink ∧
      t.sr = (driverTurn s).2.sr ∧ t.calls = (driverTurn s).2.calls ∧ (driverTurn s).1 ≠ .ended) ∨
    ((driverTurn s).1 = .ended ∧ s.re.failed = false ∧ s.ce.failed = false ∧ t = s) := by
  rcases step_cases s with ⟨a, e⟩ | ⟨a, e⟩ | ⟨a, e⟩ | ⟨a, e⟩ | ⟨r, a, e⟩ <;> rw [e] at h
  · have f := exec_frame h
    exact .inl ⟨f.1, f.2.2.1, f.2.2.2.1, f.2.2.2.2.1, f.2.2.2.2.2, by rw [a]; decide⟩
  · cases h; exact .inl ⟨rfl, rfl, rfl, rfl, rfl, by rw [a]; decide⟩
  · cases h; exact .inl ⟨rfl, rfl, rfl, rfl, rfl, by rw [a]; decide⟩
  · obtain ⟨-, -, -, d⟩ := driverTurn_ended a
    rw [d] at h
    rcases endOfRun_cases s with ⟨-, q⟩ | ⟨f1, f2, q⟩ <;> rw [q] at h <;> cases h
    exact .inr ⟨a, f1, f2, rfl⟩
  · cases h

end Sys2Proof.Machine
end

