-- ==== Sys2Proof/Laws/Reader.lean ====
section
/-! SUPPORT. The command alphabet, the reader's characters, and the bytes of the raw format. -/

namespace Sys2Proof.Machine

/-! ### Raw bytes -/

/-- A raw byte is the first opcode plus sixteen times the second (R82). -/
theorem packByte_toNat : ∀ a b : Opcode, (packByte a b).toNat = a.toNat + 16 * b.toNat := by
  decide

theorem splitByte_packByte : ∀ a b : Opcode, splitByte (packByte a b) = [a, b] := by
  decide

/-! ### The alphabet -/

theorem mnemonic_injective {i j : Instr} (h : mnemonic i = mnemonic j) : i = j := by
  cases i <;> cases j <;> first | rfl | simp [mnemonic] at h

/-- Every instruction stands in the table. -/
theorem mem_allInstrs (i : Instr) : i ∈ allInstrs := by cases i <;> decide

/-- A name that folds to a mnemonic finds its instruction (R74). -/
theorem findMnemonic_some {name : List Char} {i : Instr} (h : name.map foldCase = mnemonic i) :
    findMnemonic name = some i := by
  unfold findMnemonic
  rw [h]
  cases e : allInstrs.find? (fun j => mnemonic j == mnemonic i) with
  | none =>
    have := List.find?_eq_none.mp e i (mem_allInstrs i)
    simp at this
  | some j =>
    have := List.find?_some e
    rw [mnemonic_injective (i := j) (j := i) (by simpa using this)]

/-- A name that folds to no mnemonic finds nothing (R74). -/
theorem findMnemonic_none {name : List Char} (h : ∀ i, name.map foldCase ≠ mnemonic i) : findMnemonic name = none := by
  unfold findMnemonic
  rw [List.find?_eq_none]
  intro i _
  simpa using fun e => h i e.symm

theorem lineChar_mem (a : Config.Alphabet) (k : Fin 4) (high : Bool) : lineChar a k high ∈ a.chars := by
  match k, high with
  | 0, true | 1, true | 2, true | 3, true | 0, false | 1, false | 2, false | 3, false =>
    simp [lineChar, Config.Alphabet.chars]

theorem dataChar_mem (a : Config.Alphabet) (v : Bit) : dataChar a v ∈ a.chars := by
  unfold dataChar
  split <;> simp [Config.Alphabet.chars]

/-- A character outside the alphabet is no command (R207). -/
theorem commandOf_none {a : Config.Alphabet} {c : Char} (h : c ∉ a.chars) : commandOf a c = none := by
  simp only [Config.Alphabet.chars, List.mem_cons, List.not_mem_nil, or_false, not_or] at h
  simp [commandOf, h]

/-- The reader reads a control-line character as the command that wrote it (R81, R204). -/
theorem commandOf_lineChar {a : Config.Alphabet} (h : a.WellFormed) (k : Fin 4) (high : Bool) :
    commandOf a (lineChar a k high) = some (.line k high) := by
  have h := h.1
  simp only [Config.Alphabet.chars, List.nodup_cons, List.mem_cons, List.not_mem_nil, or_false, not_or] at h
  match k, high with
  | 0, true | 1, true | 2, true | 3, true | 0, false | 1, false | 2, false | 3, false =>
    simp [commandOf, lineChar, h, eq_comm]

theorem commandOf_dataChar {a : Config.Alphabet} (h : a.WellFormed) (v : Bit) :
    commandOf a (dataChar a v) = some (.data v) := by
  have h := h.1
  simp only [Config.Alphabet.chars, List.nodup_cons, List.mem_cons, List.not_mem_nil, or_false, not_or] at h
  have hv : ∀ b : Bit, b = 0#1 ∨ b = 1#1 := by decide
  rcases hv v with rfl | rfl <;> simp [commandOf, dataChar, isHigh, h, eq_comm]

theorem commandOf_clock {a : Config.Alphabet} (h : a.WellFormed) : commandOf a a.clock = some .clock := by
  have h := h.1
  simp only [Config.Alphabet.chars, List.nodup_cons, List.mem_cons, List.not_mem_nil, or_false, not_or] at h
  simp [commandOf, h, eq_comm]

theorem commandOf_quit {a : Config.Alphabet} (h : a.WellFormed) : commandOf a a.quit = some .quit := by
  have h := h.1
  simp only [Config.Alphabet.chars, List.nodup_cons, List.mem_cons, List.not_mem_nil, or_false, not_or] at h
  simp [commandOf, h, eq_comm]

/-- The default alphabet keeps the constraint (R81). -/
theorem default_alphabet_wellFormed : Config.Alphabet.WellFormed {} := by
  constructor <;> simp [Config.Alphabet.chars, reservedChars, Config.commentMark, Config.carriageReturn,
    Config.whitespace]

/-! ### Reading -/

/-- Setting a line sets that line and no other (R204). -/
theorem setLine_getLsbD (v : Opcode) (k : Fin 4) (high : Bool) (j : Fin 4) :
    (setLine v k high).getLsbD j = if j = k then high else v.getLsbD j := by
  revert v k high j
  decide

/-- The four lines of a command string set the lines to its opcode, whatever they were (R80, R204). -/
theorem setLine_all : ∀ v c : Opcode, lineOrder.foldl (fun l (k : Fin 4) => setLine l k (c.getLsbD k)) v = c := by
  decide

/-- The changed lines alone set the lines from the previous opcode to the next (R184, R192). -/
theorem setLine_changed : ∀ v c : Opcode,
    (lineOrder.filter fun (k : Fin 4) => c.getLsbD k != v.getLsbD k).foldl
      (fun l (k : Fin 4) => setLine l k (c.getLsbD k)) v = c := by
  decide

/-- A comment is dropped up to and with the line feed (R202). -/
theorem dropComment_append (text rest : List Char) (h : '\n' ∉ text) :
    dropComment (text ++ '\n' :: rest) = rest := by
  induction text with
  | nil => simp [dropComment, Config.lineEnd]
  | cons c t ih =>
    simp only [List.mem_cons, not_or] at h
    have hc : ¬ c = Config.lineEnd := fun e => h.1 (by rw [e]; rfl)
    simp only [List.cons_append, dropComment, if_neg hc]
    exact ih h.2

/-- A comment with no line feed runs to the end of the input (R202). -/
theorem dropComment_end (text : List Char) (h : '\n' ∉ text) : dropComment text = [] := by
  induction text with
  | nil => rfl
  | cons c t ih =>
    simp only [List.mem_cons, not_or] at h
    have hc : ¬ c = Config.lineEnd := fun e => h.1 (by rw [e]; rfl)
    simp only [dropComment, if_neg hc]
    exact ih h.2

/-- Reading one character moves the input and the position on by one. -/
theorem Reader.advance_one {r : Reader} {c : Char} {rest : List Char} (h : r.input = c :: rest) :
    r.advance rest = { r with input := rest, position := r.position + 1 } := by
  simp [Reader.advance, h]

/-- A character of the alphabet is carried out as its command (R204 to R206). -/
theorem readChar_command {s : State} {c : Char} {rest : List Char} {k : Command} (hr : c ∉ reservedChars)
    (hc : commandOf s.alphabet c = some k) : readChar c rest s = obey k (s.withSr (s.sr.advance rest)) := by
  simp only [reservedChars, List.mem_cons, not_or] at hr
  simp [readChar, hr, hc]

end Sys2Proof.Machine
end

