-- ==== Sys2Proof/Tests/Slice0.lean ====
section
/-! SUPPORT. Tests: ill-formed input is refused, every opcode's bits decode, one step of each instruction against a row
of the spec's test vectors (95_test_vectors.md, whose ids the names carry), single calls of the encoders and the reader,
and a witness for the hypotheses of each statement. -/

namespace Sys2Proof.Tests

open Sys2Proof Sys2Proof.Machine Sys2Proof.Safety Sys2Proof.Reference

/-! ### Well-formedness: each check refuses an ill-formed term -/

theorem test_alphabet_default : ({} : Config.Alphabet).WellFormed := default_alphabet_wellFormed
theorem test_alphabet_refuses_a_repeat : ¬ ({ h0 := 'B' } : Config.Alphabet).WellFormed := by
  simp [Config.Alphabet.WellFormed, Config.Alphabet.chars]
theorem test_alphabet_refuses_the_marker : ¬ ({ quit := ';' } : Config.Alphabet).WellFormed := by
  simp [Config.Alphabet.WellFormed, Config.Alphabet.chars, reservedChars, Config.commentMark, Config.whitespace]
theorem test_alphabet_refuses_white_space : ¬ ({ clock := ' ' } : Config.Alphabet).WellFormed := by
  simp [Config.Alphabet.WellFormed, Config.Alphabet.chars, reservedChars, Config.commentMark, Config.whitespace]
theorem test_opcode_in_range : opcodeInRange 15 = true ∧ opcodeInRange 16 = false := by decide
theorem test_decode_rejects_wide : decodeTableWord 8 16 = none ∧ decodeTableWord 8 15 = some .nopf := by decide
theorem test_every_instruction_wf : ∀ i : Instr, i.wf = true := fun _ => rfl

/-! ### Decoding: each code written out from the table's binary column (R70), line 3 first -/

theorem test_decode_nop0 : decode 0b0000#4 = .nop0 := rfl
theorem test_decode_ld : decode 0b0001#4 = .ld := rfl
theorem test_decode_add : decode 0b0010#4 = .add := rfl
theorem test_decode_sub : decode 0b0011#4 = .sub := rfl
theorem test_decode_one : decode 0b0100#4 = .one := rfl
theorem test_decode_nand : decode 0b0101#4 = .nand := rfl
theorem test_decode_or : decode 0b0110#4 = .or := rfl
theorem test_decode_xor : decode 0b0111#4 = .xor := rfl
theorem test_decode_sto : decode 0b1000#4 = .sto := rfl
theorem test_decode_stoc : decode 0b1001#4 = .stoc := rfl
theorem test_decode_ien : decode 0b1010#4 = .ien := rfl
theorem test_decode_oen : decode 0b1011#4 = .oen := rfl
theorem test_decode_jmp : decode 0b1100#4 = .jmp := rfl
theorem test_decode_rtn : decode 0b1101#4 = .rtn := rfl
theorem test_decode_skz : decode 0b1110#4 = .skz := rfl
theorem test_decode_nopf : decode 0b1111#4 = .nopf := rfl

/-- Source example S8: the byte 81 holds LD in its low and STO in its high nibble (R82, R91). -/
theorem test_decode_byte_S8 : decodeBytes [0x81#8] = [.ld, .sto] := by decide

/-! ### One rising edge from the spec's pre-states -/

/-- A state like reset with this PSM, these lines, this data line, and a rising edge due. -/
def edge (p : Psm) (lines : Opcode) (dataLine : Bit) : State :=
  { State.reset with
    psm := p, sr := { State.reset.sr with lines := lines, dataLine := dataLine }, calls := [.risingEdge] }

/-- Reset with these pending calls. -/
def calling (calls : List Call) : State := { State.reset with calls := calls }

/-- PSM between pulses, in the column order of the vectors: IR, RR, CY, IEN, OEN, SK, DOUT. -/
def regs (ir : Opcode) (rr cy ien oen : Bit) (sk : Bool) (dout : Bit) : Psm where
  instructionRegister := ir
  inputEnable := ien
  outputEnable := oen
  result := rr
  carry := cy
  skip := sk
  dataOut := dout
  flag0 := false
  flagF := false
  jump := false
  ret := false
  write := false

/-- The pre-states of section 3 of the vectors. -/
def preA : Psm := regs 0 1 1 1 1 false 0
def preB : Psm := regs 0 0 0 0 0 false 1
def preC : Psm := regs 14 0 1 1 1 true 0
def preD : Psm := regs 3 1 0 0 1 false 0

/-- PSM and history of a next state. -/
def seen (o : Host.Outcome State Fault Refusal) : Option (Psm × List HistoryEvent) :=
  match o with
  | .next t => some (t.psm, t.history)
  | _ => none

theorem test_nop0_V1 : seen (step (edge preA 0b0000#4 0)) =
    some ({ regs 0 1 1 1 1 false 0 with flag0 := true }, [.sampled 0]) := by decide
theorem test_nopf_V9 : seen (step (edge preB 0b1111#4 0)) =
    some ({ regs 15 0 0 0 0 false 1 with flagF := true }, []) := by decide
theorem test_nopf_forced_C : seen (step (edge preC 0b1111#4 1)) =
    some (regs 15 0 1 1 1 false 0, [.sampled 1]) := by decide
theorem test_ld_V13 : seen (step (edge preA 0b0001#4 0)) = some (regs 1 0 1 1 1 false 0, [.sampled 0]) := by decide
theorem test_ld_gated_V18 : seen (step (edge preD 0b0001#4 1)) = some (regs 1 0 0 0 1 false 0, []) := by decide
theorem test_add_V19 : seen (step (edge preA 0b0010#4 0)) = some (regs 2 0 1 1 1 false 0, [.sampled 0]) := by decide
theorem test_add_V20 : seen (step (edge preA 0b0010#4 1)) = some (regs 2 1 1 1 1 false 0, [.sampled 1]) := by decide
theorem test_sub_V26 : seen (step (edge preA 0b0011#4 1)) = some (regs 3 0 1 1 1 false 0, [.sampled 1]) := by decide
theorem test_sub_gated_V28 : seen (step (edge preB 0b0011#4 1)) = some (regs 3 1 0 0 0 false 1, []) := by decide
theorem test_one_V31 : seen (step (edge preA 0b0100#4 0)) = some (regs 4 1 0 1 1 false 0, [.sampled 0]) := by decide
theorem test_nand_V37 : seen (step (edge preA 0b0101#4 0)) = some (regs 5 1 1 1 1 false 0, [.sampled 0]) := by decide
theorem test_nand_V38 : seen (step (edge preA 0b0101#4 1)) = some (regs 5 0 1 1 1 false 0, [.sampled 1]) := by decide
theorem test_or_V44 : seen (step (edge preA 0b0110#4 1)) = some (regs 6 1 1 1 1 false 0, [.sampled 1]) := by decide
theorem test_or_gated_V46 : seen (step (edge preB 0b0110#4 1)) = some (regs 6 0 0 0 0 false 1, []) := by decide
theorem test_xor_V49 : seen (step (edge preA 0b0111#4 0)) = some (regs 7 1 1 1 1 false 0, [.sampled 0]) := by decide
theorem test_xor_V50 : seen (step (edge preA 0b0111#4 1)) = some (regs 7 0 1 1 1 false 0, [.sampled 1]) := by decide
theorem test_sto_V58 : seen (step (edge preB 0b1000#4 1)) = some (regs 8 0 0 0 0 false 0, []) := by decide
theorem test_sto_V55 : seen (step (edge preA 0b1000#4 0)) =
    some ({ regs 8 1 1 1 1 false 1 with write := true }, [.sampled 0, .write 1]) := by decide
theorem test_stoc_V63 : seen (step (edge preB 0b1001#4 0)) = some (regs 9 0 0 0 0 false 1, []) := by decide
theorem test_stoc_V65 : seen (step (edge preD 0b1001#4 0)) =
    some ({ regs 9 1 0 0 1 false 0 with write := true }, [.write 0]) := by decide
theorem test_ien_V67 : seen (step (edge preA 0b1010#4 0)) = some (regs 10 1 1 0 1 false 0, [.sampled 0]) := by decide
theorem test_ien_V70 : seen (step (edge preB 0b1010#4 1)) = some (regs 10 0 0 1 0 false 1, [.sampled 1]) := by decide
theorem test_oen_V73 : seen (step (edge preA 0b1011#4 0)) = some (regs 11 1 1 1 0 false 0, [.sampled 0]) := by decide
theorem test_oen_gated_V78 : seen (step (edge preD 0b1011#4 1)) = some (regs 11 1 0 0 0 false 0, []) := by decide
theorem test_jmp_V79 : seen (step (edge preA 0b1100#4 0)) =
    some ({ regs 12 1 1 1 1 false 0 with jump := true }, [.sampled 0]) := by decide
theorem test_rtn_V87 : seen (step (edge preB 0b1101#4 0)) =
    some ({ regs 13 0 0 0 0 true 1 with ret := true }, []) := by decide
theorem test_skz_V93 : seen (step (edge preB 0b1110#4 0)) = some (regs 14 0 0 0 0 true 1, []) := by decide
theorem test_skz_V95 : seen (step (edge preD 0b1110#4 0)) = some (regs 14 1 0 0 1 false 0, []) := by decide

/-- V-E9: a skipped IEN on the lines does not sample with inputs disabled. -/
theorem test_skipped_ien_VE9 : seen (step (edge { preB with skip := true } 0b1010#4 1)) =
    some (regs 15 0 0 0 0 false 1, []) := by decide

/-- V-E3: a falling edge before any rising edge changes nothing. -/
theorem test_falling_first_VE3 : (fallingEdge State.reset) = State.reset := by decide

/-- The pulse is retracted by the falling edge and `data_out` stays (end of V-E7). -/
theorem test_falling_VE7 : (fallingEdge (edge { regs 8 1 1 1 1 false 1 with write := true } 8 0)).psm =
    regs 8 1 1 1 1 false 1 := by decide

/-! ### The opcode table (V-LK) -/

theorem test_lookup_VLK3 : findMnemonic ['L', 'd'] = some .ld := by decide
theorem test_lookup_VLK9 : recordOf {} (encode .skz) = ⟨['S', 'K', 'Z'], 14#4, ['a', 'B', 'C', 'D']⟩ := by decide
theorem test_lookup_VLK11 : findMnemonic ['N', 'O', 'P', 'O'] = none := by decide
theorem test_lookup_VLK14 : findMnemonic ['L', 'D', ' '] = none := by decide
theorem test_lookup_VLK16 : findMnemonic [] = none := by decide
theorem test_lookup_VLK19 : findMnemonic ['N', 'O', 'P'] = none := by decide

/-! ### The raw encoder (V-RE, V-ER) -/

/-- Reset with a raw encoder that holds its third opcode and a sink with this room. -/
def rawPending (acc : Opcode) (room : Option Nat) (calls : List Call) : State :=
  { State.reset with
    re := { acc := acc, pending := true, failed := false, count := 3 }
    reSink := { accepted := [], room := room }
    calls := calls }

theorem test_raw_VRE5 : (reEmit 8#4 (rawPending 1#4 none [])).reSink.accepted = [0x81#8] := by decide
theorem test_raw_VRE6 : (reEmit 1#4 (rawPending 8#4 none [])).reSink.accepted = [0x18#8] := by decide
theorem test_raw_VRE2 : (reFinish (rawPending 5#4 none [])).reSink.accepted = [0x05#8] := by decide
theorem test_raw_VRE12 : (reEmit 1#4 State.reset).re = ⟨1#4, true, false, 1⟩ := by decide
theorem test_raw_VRE1 : (reFinish State.reset).reSink.accepted = [] := by decide
theorem test_raw_VER2 : (reEmit 3#4 (rawPending 2#4 (some 0) [])).results =
    [.raised (.sinkWriteFailure (some 3))] := by decide

/-! ### The command-stream encoder (V-CE, V-CF, V-ER) -/

/-- Reset with a command-stream encoder in this mode, with this previous opcode and data value. -/
def commandState (mode : Mode) (prev : Opcode) (dataValue : Bit) (room : Option Nat) (calls : List Call) : State :=
  { State.reset with
    ce := { State.reset.ce with mode := mode, prev := prev, dataValue := dataValue }
    ceSink := { accepted := [], room := room }
    calls := calls }

/-- The same encoder with comments on. -/
def withComments (s : State) : State := { s with ce := { s.ce with comments := true } }

theorem test_ce_off_VCE2 : (ceEmit 0#4 (commandState .off 0 0 none [])).ceSink.accepted = ['K'] := by decide
theorem test_ce_off_VCE5 : (ceEmit 10#4 (commandState .off 5 0 none [])).ceSink.accepted =
    ['a', 'B', 'c', 'D', 'K'] := by decide
theorem test_ce_inst_VCE8 : (ceEmit 1#4 (commandState .inst 0 1 none [])).ceSink.accepted =
    ['A', 'b', 'c', 'd', 'K'] := by decide
theorem test_ce_data_VCE8 : (ceEmit 1#4 (commandState .data 0 1 none [])).ceSink.accepted =
    ['A', 'b', 'c', 'd', 'X', 'K'] := by decide
theorem test_ce_comments : annotation 8#4 = [';', 'S', 'T', 'O', '\n'] := by decide
theorem test_ce_set_data_VCE6 : (ceSetData 1 (commandState .off 0 1 none [])).ceSink.accepted = ['X'] := by decide
theorem test_ce_set_data_VCF4 : (ceSetData 1 (commandState .data 0 0 none [])).ceSink.accepted = [] := by decide
theorem test_ce_order_VCF5 : (ceSelectMode .off (ceEmit 0 State.reset)).results =
    [.ok, .raised (.configurationOrdering .off)] := by decide
theorem test_ce_failure_VER4 : (ceEmit 1#4 (commandState .inst 0 0 (some 2) [])).ce.failed = true ∧
    (ceEmit 1#4 (commandState .inst 0 0 (some 2) [])).ce.started = true := ⟨rfl, rfl⟩
theorem test_ce_failure_index_VER4 : (ceEmit 1#4 (commandState .inst 0 0 (some 2) [])).results =
    [.raised (.sinkWriteFailure (some 0))] := rfl

/-! ### The stream reader (V-SR) -/

/-- Reset with this input given to the reader. -/
def reading (input : List Char) : State := { State.reset with sr := { State.reset.sr with input := input } }

/-- The reader after a step. -/
def readerOf (o : Host.Outcome State Fault Refusal) : Option Reader :=
  match o with
  | .next t => some t.sr
  | _ => none

theorem test_sr_line_VSR7 : readerOf (step (reading ['D', 'K'])) =
    some { lines := 8#4, dataLine := 0, stopped := false, input := ['K'], position := 1, pulseHigh := false } := by
  decide
theorem test_sr_comment_VSR3 : readerOf (step (reading [';', ' ', 'K', '\n', 'K'])) =
    some { lines := 0, dataLine := 0, stopped := false, input := ['K'], position := 4, pulseHigh := false } := by
  decide
theorem test_sr_quit_VSR1 : readerOf (step (reading ['Q', 'K'])) =
    some { lines := 0, dataLine := 0, stopped := true, input := ['K'], position := 1, pulseHigh := false } := by
  decide
theorem test_sr_unknown_VSR4 : step (reading ['z', 'K']) = .refused (.unknownCommandCharacter 0 'z') := rfl

/-! ### The interface the host uses -/

theorem test_fetch_word : seen (step (State.reset.withFetchWord 8 13)) =
    some ({ regs 13 0 0 0 0 true 0 with ret := true }, []) := by decide
/-- The end of a run with a failed encoder is its fault (R224), in the run itself. -/
theorem test_run_fault_R224 : Sys2Proof.core.run 2 { calling [.risingEdge] with
    ce := { State.reset.ce with failed := true } } = .fault (.sinkWriteFailure .commandEncoder) := rfl
theorem test_judge_fault : judge { State.reset with re := { State.reset.re with failed := true } } =
    .fault (.sinkWriteFailure .rawEncoder) := rfl

/-! ### Witnesses: for each statement with hypotheses, concrete states that meet them, one for each of its clauses -/

/-- Reset with an encoder that has failed, both blocks. -/
def failedState (calls : List Call) : State :=
  { State.reset with
    re := { State.reset.re with failed := true }
    ce := { State.reset.ce with failed := true, started := true }
    calls := calls }

theorem witness_LookupFoldsCaseAndComparesWhole :
    ['l', 'd'].map foldCase = mnemonic .ld ∧ ∀ i, ['N', 'O', 'P', 'O'].map foldCase ≠ mnemonic i :=
  ⟨by decide, fun i => by cases i <;> decide⟩

/-- The boundary characters of the folding: the last before `a`, the first after `z`. -/
theorem witness_LookupFoldsCaseAndComparesWhole_boundary :
    '`'.toNat < 97 ∧ 122 < (Char.ofNat 123).toNat ∧ (25 : Nat) < 26 := by decide

theorem witness_UnknownMnemonicChangesNoBlock :
    (∀ i, ([] : List Char).map foldCase ≠ mnemonic i) ∧
    ∀ call ∈ [Call.lookup [], .assembleRaw [], .assembleCommand []], (calling [call]).calls = [call] :=
  ⟨fun i => by cases i <;> decide, fun _ _ => rfl⟩

theorem witness_KnownMnemonicIsEmitted :
    ['n', 'o', 'p', '0'].map foldCase = mnemonic .nop0 ∧
    (calling [.lookup ['n', 'o', 'p', '0']]).calls = [.lookup ['n', 'o', 'p', '0']] ∧
    (calling [.assembleRaw ['n', 'o', 'p', '0']]).calls = [.assembleRaw ['n', 'o', 'p', '0']] ∧
    (calling [.assembleCommand ['n', 'o', 'p', '0']]).calls = [.assembleCommand ['n', 'o', 'p', '0']] := by
  decide

theorem witness_RawEmitWritesOnEverySecondCall_first :
    let s := calling [.reEmit 15]
    s.calls = [.reEmit 15] ∧ s.re.failed = false ∧ s.re.pending = false := by decide
theorem witness_RawEmitWritesOnEverySecondCall_second :
    let s := rawPending 15 (some 1) [.reEmit 15]
    s.calls = [.reEmit 15] ∧ s.re.failed = false ∧ s.re.pending = true ∧ s.reSink.room ≠ some 0 := by decide
theorem witness_RawEmitWritesOnEverySecondCall_sinkFails :
    let s := rawPending 15 (some 0) [.reEmit 15]
    s.calls = [.reEmit 15] ∧ s.re.failed = false ∧ s.re.pending = true ∧ s.reSink.room = some 0 := by decide
theorem witness_RawEmitWritesOnEverySecondCall_failed :
    (failedState [.reEmit 0]).calls = [.reEmit 0] ∧ (failedState [.reEmit 0]).re.failed = true := by decide

theorem witness_RawFailureNamesTheOpcode :
    ((failedState [.reEmit 0]).calls = [.reEmit 0] ∧ (failedState [.reEmit 0]).re.failed = true) ∧
    let s := rawPending 15 (some 0) [.reEmit 15]
    s.calls = [.reEmit 15] ∧ s.re.pending = true ∧ s.reSink.room = some 0 := by decide

theorem witness_RawFinishPadsWithNop0_empty :
    let s := calling [.reFinish]
    s.calls = [.reFinish] ∧ s.re.failed = false ∧ s.re.pending = false := by decide
theorem witness_RawFinishPadsWithNop0_pending :
    let s := rawPending 15 (some 1) [.reFinish]
    s.calls = [.reFinish] ∧ s.re.failed = false ∧ s.re.pending = true ∧ s.reSink.room ≠ some 0 := by decide
theorem witness_RawFinishPadsWithNop0_sinkFails :
    let s := rawPending 15 (some 0) [.reFinish]
    s.calls = [.reFinish] ∧ s.re.failed = false ∧ s.re.pending = true ∧ s.reSink.room = some 0 := by decide
theorem witness_RawFinishPadsWithNop0_failed :
    (failedState [.reFinish]).calls = [.reFinish] ∧ (failedState [.reFinish]).re.failed = true := by decide

/-- For RawStreamHasThePairsInOrder and RawRoundTrip: an odd program (V-RE7) and the empty one (V-RE1). -/
theorem witness_RawStreamHasThePairsInOrder :
    ∀ ops ∈ [([15, 15, 15] : List Opcode), []],
      let s := calling (ops.map .reEmit ++ [.reFinish])
      s.calls = ops.map .reEmit ++ [.reFinish] ∧ s.re.pending = false ∧ s.re.failed = false ∧ s.reSink.room = none := by
  decide
theorem witness_RawRoundTrip :
    ∀ ops ∈ [([15, 15, 15] : List Opcode), []],
      let s := calling (ops.map .reEmit ++ [.reFinish])
      s.calls = ops.map .reEmit ++ [.reFinish] ∧ s.re.pending = false ∧ s.re.failed = false ∧ s.reSink.room = none := by
  decide

theorem reset_psmOk : PsmOk State.reset.psm := by constructor <;> decide

/-- Reset with any driver's part meets the invariant. -/
theorem consistent_calling (calls : List Call) : Consistent (calling calls) where
  psm := reset_psmOk
  failed_started := by intro h; exact absurd h (by decide : ¬ false = true)
  unstarted_empty := fun _ => rfl
  alphabet := default_alphabet_wellFormed

theorem witness_StepKeepsConsistent :
    ∃ t, Consistent (calling [.risingEdge]) ∧ step (calling [.risingEdge]) = .next t :=
  ⟨_, consistent_calling _, rfl⟩

theorem witness_AtMostOnePulse :
    (∃ t, Consistent (calling [.risingEdge]) ∧ Sys2Proof.core.run 1 (calling [.risingEdge]) = .next t) ∧
    (driverTurn (calling [.fallingEdge])).1 = .falling :=
  ⟨⟨_, consistent_calling _, rfl⟩, rfl⟩

theorem witness_StepRunsTheSelectedInstruction :
    ((edge preB 13 0).calls = [.risingEdge] ∧ (edge preB 13 0).psm.skip = false) ∧
    ((edge preC 13 0).calls = [.risingEdge] ∧ (edge preC 13 0).psm.skip = true) := by decide

theorem witness_ClockPulseIsOneCycle :
    let s := reading ['K']
    s.alphabet.WellFormed ∧ s.calls = [] ∧ s.sr.pulseHigh = false ∧ s.sr.stopped = false ∧
      s.sr.input = s.alphabet.clock :: [] :=
  ⟨default_alphabet_wellFormed, rfl, rfl, rfl, rfl⟩

theorem witness_RisingEdgeIsTheSpecsFunction :
    (edge preA 2 1).calls = [.risingEdge] ∧ (edge preC 2 1).calls = [.risingEdge] := by decide

theorem witness_FallingEdgeClearsThePulses : (calling [.fallingEdge]).calls = [.fallingEdge] := rfl

/-- For every `SkippedOn` clause (ForcedSkipIsSilent and the instructions that hold one): whatever the lines carry. -/
theorem witness_SkippedOn (c : Opcode) :
    (edge preC c 1).calls = [.risingEdge] ∧ (edge preC c 1).psm.skip = true ∧ (edge preC c 1).sr.lines = c :=
  ⟨rfl, rfl, rfl⟩

theorem witness_SkipsDoNotChain_consumed :
    let s := { edge preC 13 1 with calls := [.risingEdge, .risingEdge] }
    s.calls = [.risingEdge, .risingEdge] ∧ s.psm.skip = true := by decide
theorem witness_SkipsDoNotChain_heldRtn :
    let s := { edge preA 13 1 with calls := [.risingEdge, .fallingEdge, .risingEdge, .fallingEdge] }
    s.calls = [.risingEdge, .fallingEdge, .risingEdge, .fallingEdge] ∧ s.psm.skip = false ∧ s.sr.lines = 13#4 := by
  decide

theorem witness_PsmChangesOnlyOnEdges :
    (∃ t, step (calling [.setLines 15]) = .next t ∧ (driverTurn (calling [.setLines 15])).1 = .quiet) ∧
    (∃ t, step (calling [.fallingEdge]) = .next t ∧ (driverTurn (calling [.fallingEdge])).1 = .falling) ∧
    ∃ t, step (calling [.risingEdge]) = .next t ∧ (driverTurn (calling [.risingEdge])).1 = .rising :=
  ⟨⟨_, rfl, rfl⟩, ⟨_, rfl, rfl⟩, ⟨_, rfl, rfl⟩⟩

/-- For IdleHoldsTheState: reset, whose input is empty, and a reader that has stopped before its input. -/
theorem witness_IdleHoldsTheState :
    (AtEnd State.reset ∧ State.reset.re.failed = false ∧ State.reset.ce.failed = false) ∧
    let s := { reading ['K'] with sr := { (reading ['K']).sr with stopped := true } }
    AtEnd s ∧ s.re.failed = false ∧ s.ce.failed = false :=
  ⟨⟨⟨rfl, rfl, .inr rfl⟩, rfl, rfl⟩, ⟨rfl, rfl, .inl rfl⟩, rfl, rfl⟩

/-- The instruction statements about the state after the instruction: it exists, for each. -/
theorem witness_exec (i : Instr) : ∃ t, exec i (edge preA 0 1) = .next t := by cases i <;> exact ⟨_, rfl⟩

/-- XOR and ADD from a state whose carry is 0. -/
theorem witness_XorOfResultAndDataIn : ∃ t u, (edge preD 7 1).psm.carry = 0#1 ∧ exec .xor (edge preD 7 1) = .next t ∧
    exec .add (edge preD 7 1) = .next u := ⟨_, _, rfl, rfl, rfl⟩

/-- For each clause of OnlyTheNamedOpcodesWriteARegister, an instruction that does write the register. -/
theorem witness_OnlyTheNamedOpcodesWriteARegister :
    (∃ t, exec .ld (edge preA 0 0) = .next t ∧ t.psm.result ≠ preA.result) ∧
    (∃ t, exec .one (edge preA 0 0) = .next t ∧ t.psm.carry ≠ preA.carry) ∧
    (∃ t, exec .ien (edge preA 0 0) = .next t ∧ t.psm.inputEnable ≠ preA.inputEnable) ∧
    (∃ t, exec .oen (edge preA 0 0) = .next t ∧ t.psm.outputEnable ≠ preA.outputEnable) ∧
    (∃ t, exec .sto (edge preA 0 0) = .next t ∧ t.psm.dataOut ≠ preA.dataOut) ∧
    (∃ t, exec .skz (edge preB 0 0) = .next t ∧ t.psm.skip = true) ∧
    ∃ t, exec .nopf (edge preA 0 0) = .next t ∧ (encode .nopf).getLsbD 3 = true :=
  ⟨⟨_, rfl, by decide⟩, ⟨_, rfl, by decide⟩, ⟨_, rfl, by decide⟩, ⟨_, rfl, by decide⟩, ⟨_, rfl, by decide⟩,
    ⟨_, rfl, by decide⟩, ⟨_, rfl, by decide⟩⟩

/-- For InstructionsTouchOnlyPsmAndHistory: an edge that samples and writes, and one that does neither. -/
theorem witness_InstructionsTouchOnlyPsmAndHistory :
    (∃ t, exec .sto (edge preA 8 1) = .next t) ∧ ∃ t, exec .nop0 (edge preB 0 1) = .next t :=
  ⟨⟨_, rfl⟩, ⟨_, rfl⟩⟩

theorem witness_DisabledInputsHideTheDataLine :
    ∃ t, Instr.ld ≠ .ien ∧ (edge preB 1 1).psm.inputEnable = 0#1 ∧ exec .ld (edge preB 1 1) = .next t :=
  ⟨_, by decide, rfl, rfl⟩

theorem witness_BlocksDoNotReadEachOther :
    ∃ t t', exec .add (edge preA 2 1) = .next t ∧ exec .add { edge preA 2 1 with calls := [] } = .next t' ∧
      ({ edge preA 2 1 with calls := [] } : State).psm = (edge preA 2 1).psm ∧
      ({ edge preA 2 1 with calls := [] } : State).sr.dataLine = (edge preA 2 1).sr.dataLine :=
  ⟨_, _, rfl, rfl, rfl, rfl⟩

theorem witness_SelectModeOnlyBeforeOutput :
    ((failedState [.ceSelectMode .off]).calls = [.ceSelectMode .off] ∧
      (failedState [.ceSelectMode .off]).ce.failed = true) ∧
    (let s := { State.reset with ce := { State.reset.ce with started := true }, calls := [.ceSelectMode .off] }
     s.calls = [.ceSelectMode .off] ∧ s.ce.failed = false ∧ s.ce.started = true) ∧
    let s := calling [.ceSelectMode .data]
    s.calls = [.ceSelectMode .data] ∧ s.ce.failed = false ∧ s.ce.started = false := by decide

theorem witness_SetDataWritesOutsideDataMode :
    (let s := commandState .data 0 0 none [.ceSetData 1]
     s.calls = [.ceSetData 1] ∧ s.ce.failed = false ∧ s.ce.mode = .data) ∧
    (let s := commandState .inst 0 0 (some 1) [.ceSetData 1]
     s.calls = [.ceSetData 1] ∧ s.ce.failed = false ∧ s.ce.mode ≠ .data ∧ s.ceSink.room ≠ some 0) ∧
    let s := commandState .off 0 0 (some 0) [.ceSetData 1]
    s.calls = [.ceSetData 1] ∧ s.ce.failed = false ∧ s.ce.mode ≠ .data ∧ s.ceSink.room = some 0 := by decide

/-- Each mode of EmitWritesTheBlockOfTheMode; the sink's room is exactly what the block needs, or unbounded. -/
theorem witness_EmitWritesTheBlockOfTheMode :
    ∀ p ∈ [(Mode.off, some 1), (.inst, some 5), (.data, some 6), (.off, none)],
      let s := commandState p.1 8 1 p.2 [.ceEmit 8]
      s.calls = [.ceEmit 8] ∧ s.ce.failed = false ∧
        (p.2 = none ∨ p.2 = some (specEmission s.alphabet s.ce 8).length) := by decide

/-- The same with comments on: the block and the five characters of the annotation just fit. -/
theorem witness_EmitWritesTheBlockOfTheMode_comments :
    let s := withComments (commandState .inst 0 1 (some 10) [.ceEmit 8])
    s.calls = [.ceEmit 8] ∧ s.ce.failed = false ∧ s.ce.comments = true ∧
      some (specEmission s.alphabet s.ce 8).length = s.ceSink.room := by decide

/-- EmitStopsAtTheFailedWrite: at the first write and at the last. -/
theorem witness_EmitStopsAtTheFailedWrite :
    ∀ room ∈ [0, 4],
      let s := commandState .inst 0 0 (some room) [.ceEmit 8]
      s.calls = [.ceEmit 8] ∧ s.ce.failed = false ∧ s.ceSink.room = some room ∧
        room < (emission s.alphabet s.ce 8).length := by decide

theorem witness_SinkFailureIsSticky :
    ∀ call ∈ [Call.reFinish, .reEmit 1, .ceSelectMode .off, .ceSetData 1, .ceEmit 1],
      (failedState [call]).calls = [call] ∧ (failedState [call]).re.failed = true ∧
        (failedState [call]).ce.failed = true := by decide

/-- The program V-CE7, given to an encoder in a mode. -/
def programCE7 : List Item := [.op .stoc, .setData 0, .op .or]

theorem encodes_programCE7 (mode : Mode) :
    EncodesCommands (commandState mode 0 0 none (programCE7.flatMap commandCalls)) programCE7 :=
  ⟨by intro m; simp [programCE7], rfl, rfl, rfl⟩

/-- For FixedLengthCounts: in each mode V-CE7 with the mode in force selected again first, into a sink with room for
exactly its commands (11 and 12); and, after output has begun, with a selection that is rejected. -/
theorem witness_FixedLengthCounts :
    (∀ p ∈ [(Mode.inst, 11), (.data, 12)],
      let items := .mode p.1 :: programCE7
      let s := commandState p.1 0 0 (some p.2) (items.flatMap commandCalls)
      s.calls = items.flatMap commandCalls ∧ s.ce.failed = false ∧ s.ce.mode ≠ .off ∧
        fixedLength s.ce items = p.2) ∧
    ∀ m, Item.mode m ∈ Item.mode .inst :: programCE7 → m = .inst := by
  refine ⟨by decide, fun m h => ?_⟩
  simpa [programCE7] using h
theorem witness_FixedLengthCounts_rejected :
    let s := commandState .inst 0 0 none ((.mode .off :: programCE7).flatMap commandCalls)
    let u := { s with ce := { s.ce with started := true } }
    u.calls = (.mode .off :: programCE7).flatMap commandCalls ∧ u.ce.failed = false ∧ u.ce.mode ≠ .off ∧
      u.ce.started = true ∧ u.ceSink.room = none := by decide

theorem witness_DiffModeIsNeverLonger :
    let s := commandState .off 0 0 none (programCE7.flatMap commandCalls)
    let s' := commandState .inst 0 0 none (programCE7.flatMap commandCalls)
    EncodesCommands s programCE7 ∧ EncodesCommands s' programCE7 ∧ s.ce.mode = .off ∧ s.ce.prev = 0#4 ∧
      s'.ce.mode = .inst ∧ s'.ce.comments = s.ce.comments :=
  ⟨encodes_programCE7 _, encodes_programCE7 _, rfl, rfl, rfl, rfl⟩

theorem witness_EncoderNeverWritesQuit :
    ∃ t, (calling [.ceEmit 8]).alphabet.WellFormed ∧ (calling [.ceEmit 8]).ce.comments = false ∧
      step (calling [.ceEmit 8]) = .next t ∧ t.ce.failed = false :=
  ⟨_, default_alphabet_wellFormed, rfl, rfl, rfl⟩

/-- LineCommandsSetTheLevels: each line to each level, and the two data commands. -/
theorem witness_LineCommandsSetTheLevels :
    (∀ c, (reading [c]).alphabet.WellFormed ∧ (reading [c]).calls = [] ∧ (reading [c]).sr.pulseHigh = false ∧
      (reading [c]).sr.stopped = false) ∧
    (∀ (k : Fin 4) (high : Bool), (reading [lineChar {} k high]).sr.input =
      lineChar (reading [lineChar {} k high]).alphabet k high :: []) ∧
    (reading ['X']).sr.input = (reading ['X']).alphabet.dataHigh :: [] ∧
    (reading ['x']).sr.input = (reading ['x']).alphabet.dataLow :: [] :=
  ⟨fun _ => ⟨default_alphabet_wellFormed, rfl, rfl, rfl⟩, fun _ _ => rfl, rfl, rfl⟩

/-- CommentsAndWhitespaceAreDiscarded: an empty comment before a line feed, one with no line feed, and each white
space. -/
theorem witness_CommentsAndWhitespaceAreDiscarded :
    (let s := reading [';', '\n']
     s.calls = [] ∧ s.sr.pulseHigh = false ∧ s.sr.stopped = false ∧ '\n' ∉ ([] : List Char) ∧
        s.sr.input = ';' :: [] ++ '\n' :: []) ∧
    (let s := reading [';', 'K']
     s.calls = [] ∧ s.sr.pulseHigh = false ∧ s.sr.stopped = false ∧ '\n' ∉ ['K'] ∧ s.sr.input = ';' :: ['K']) ∧
    ∀ c ∈ ['\r', ' ', '\t', '\n'], (reading [c]).calls = [] ∧ (reading [c]).sr.pulseHigh = false ∧
      (reading [c]).sr.stopped = false ∧ (reading [c]).sr.input = c :: [] :=
  ⟨⟨rfl, rfl, rfl, by simp, rfl⟩, ⟨rfl, rfl, rfl, by simp, rfl⟩, fun _ _ => ⟨rfl, rfl, rfl, rfl⟩⟩

/-- For QuitStopsTheReader: with no encoder failed, and with both failed. -/
theorem witness_QuitStopsTheReader :
    (let s := reading ['Q', 'K']
     s.alphabet.WellFormed ∧ s.calls = [] ∧ s.sr.pulseHigh = false ∧ s.sr.stopped = false ∧
      s.sr.input = s.alphabet.quit :: ['K'] ∧ s.re.failed = false ∧ s.ce.failed = false) ∧
    let s := { failedState [] with sr := (reading ['Q', 'K']).sr }
    s.alphabet.WellFormed ∧ s.calls = [] ∧ s.sr.pulseHigh = false ∧ s.sr.stopped = false ∧
      s.sr.input = s.alphabet.quit :: ['K'] ∧ s.re.failed = true :=
  ⟨⟨default_alphabet_wellFormed, rfl, rfl, rfl, rfl, rfl, rfl⟩, default_alphabet_wellFormed, rfl, rfl, rfl, rfl, rfl⟩

/-- For FailedRunIsNeverASuccess: a failed state at its end and one with an edge still to come, one with CE failed alone,
and a run that ends well. -/
theorem witness_FailedRunIsNeverASuccess :
    (AtEnd (failedState []) ∧ (failedState []).re.failed = true ∧ faulted (failedState []) = true) ∧
    (∃ t, Sys2Proof.core.run 1 (failedState [.risingEdge]) = .next t ∧
      (failedState [.risingEdge]).re.failed = true ∧ (failedState [.risingEdge]).ce.failed = true) ∧
    (let s := { failedState [] with re := State.reset.re }
     AtEnd s ∧ s.re.failed = false ∧ s.ce.failed = true) ∧
    ∃ t, judgedRun 1 (calling [.risingEdge]) = .next t :=
  ⟨⟨⟨rfl, rfl, .inr rfl⟩, rfl, rfl⟩, ⟨_, rfl, rfl, rfl⟩, ⟨⟨rfl, rfl, .inr rfl⟩, rfl, rfl⟩, _, rfl⟩

theorem witness_UnknownCharacterIsRefused :
    let s := reading ['z', 'K']
    s.calls = [] ∧ s.sr.pulseHigh = false ∧ s.sr.stopped = false ∧ s.sr.input = 'z' :: ['K'] ∧
      'z' ∉ s.alphabet.chars ∧ 'z' ∉ [';', '\r', '\n', ' ', '\t'] := by decide

/-- StreamDrivesTheProgram, in each mode: the encoder's program V-CE7 and a reader right after reset that is given the
stream. -/
theorem witness_StreamDrivesTheProgram (mode : Mode) :
    let s := commandState mode 0 0 none (programCE7.flatMap commandCalls)
    EncodesCommands s programCE7 ∧ s.ceSink.accepted = [] ∧ s.alphabet.WellFormed ∧
      ∃ t, Sys2Proof.core.run programCE7.length s = .next t ∧
        let u := reading t.ceSink.accepted
        u.alphabet = s.alphabet ∧ u.calls = [] ∧ u.sr.pulseHigh = false ∧ u.sr.stopped = false ∧
          (s.ce.mode = .off → u.sr.lines = s.ce.prev) ∧ u.sr.input = t.ceSink.accepted :=
  ⟨encodes_programCE7 mode, rfl, default_alphabet_wellFormed, by
    cases mode <;> exact ⟨_, rfl, rfl, rfl, rfl, rfl, fun _ => rfl, rfl⟩⟩

end Sys2Proof.Tests
end

/-! ### The opcode table: settled statements (R72) -/

namespace Sys2Proof.Proofs
open Sys2Proof.Machine

/-- Settles O2: `encode_decode` and `decode_encode` are the two inverses (R72), `mnemonic_injective` tells the names
apart. -/
theorem codesAreABijection : Obligations.CodesAreABijection :=
  ⟨encode_decode, decode_encode, fun _ _ => mnemonic_injective⟩

end Sys2Proof.Proofs

/-! ### The order of the edges: settled statements (R100, R110) -/

namespace Sys2Proof.Proofs
open Sys2Proof.Machine Sys2Proof.Reference

/-- The model's falling edge acts on PSM as the spec's `onFallingEdge` (R110). -/
@[simp] theorem fallingEdge_psm (s : State) : (fallingEdge s).psm = onFallingEdge s.psm := rfl

/-- A falling edge records no event (R60, R110). -/
@[simp] theorem fallingEdge_history (s : State) : (fallingEdge s).history = s.history := rfl

/-- An end of a run that is no fault holds the state (R208). -/
theorem eq_of_endOfRun_next {s t : State} (h : endOfRun s = .next t) : t = s := by
  rcases endOfRun_cases s with ⟨_, hend⟩ | ⟨_, _, hend⟩ <;> rw [hend] at h <;> cases h
  rfl

/-- Settles O19: the step is the model's falling edge (`step_falling`), whose whole next state `fallingEdge_eq` gives
(R110). -/
theorem fallingEdgeClearsThePulses : Obligations.FallingEdgeClearsThePulses := by
  intro s rest hcalls
  rw [step_falling hcalls, fallingEdge_eq]
  rfl

/-- Settles O22, by what the step can be (`step_cases`): the driver's turn itself leaves PSM and its history
(`driverTurn_psm`), so only the edge it asks for can change them (R100). -/
theorem psmChangesOnlyOnEdges : Obligations.PsmChangesOnlyOnEdges := by
  intro s t hnext
  obtain ⟨hpsm, hhistory, _⟩ := driverTurn_psm s
  rcases step_cases s with ⟨turn, hstep⟩ | ⟨turn, hstep⟩ | ⟨turn, hstep⟩ | ⟨turn, hstep⟩ | ⟨r, turn, hstep⟩
  · -- a rising edge
    exact ⟨by simp [turn], by simp [turn], fun _ => ⟨_, hstep⟩⟩
  · -- a falling edge
    cases hstep.symm.trans hnext
    exact ⟨by simp [turn], fun _ => by simp [hpsm, hhistory], by simp [turn]⟩
  · -- a turn without an edge
    cases hstep.symm.trans hnext
    exact ⟨fun _ => ⟨hpsm, hhistory⟩, by simp [turn], by simp [turn]⟩
  · -- the end of the run
    cases eq_of_endOfRun_next (hstep.symm.trans hnext)
    exact ⟨fun _ => ⟨hpsm, hhistory⟩, by simp [turn], by simp [turn]⟩
  · -- a refused character
    cases hstep.symm.trans hnext

end Sys2Proof.Proofs

/-! ### The rising edge in the terms of the instruction statements (R103, R104, R107) -/

namespace Sys2Proof.Proofs
open Sys2Proof.Machine Sys2Proof.Reference

/-- The model's latch is the statements' `quietLatch` of the instruction's code (R101, R103, R106). -/
theorem latch_eq_quietLatch (p : Psm) (i : Instr) : p.latch i = quietLatch p (encode i) := rfl

/-- `data_in` of every opcode but IEN, as the statements name it (R104). -/
theorem dataIn_eq_gatedData {i : Instr} (hi : i ≠ .ien) (s : State) : dataIn i s = gatedData s :=
  dataIn_gated hi s

/-- The edge of every opcode but IEN samples the line exactly when inputs are enabled (R52, R104). -/
theorem sampleEvents_eq_gatedSample {i : Instr} (hi : i ≠ .ien) (s : State) : sampleEvents i s = gatedSample s := by
  simp [sampleEvents, gatedSample, samples, hi, isHigh_iff]

/-- An edge that leaves `write` low records no write (R54). -/
theorem writeEvents_eq_nil {p : Psm} (hwrite : p.write = false) : writeEvents p = [] := by
  simp [writeEvents, hwrite]

/-- The whole next state of a rising edge that is no IEN and raises no `write`: the effect on the latched PSM, and the
gated sample as its only event (R107). -/
theorem rise_of_gated_of_no_write {i : Instr} (hi : i ≠ .ien) (effect : Bit → Psm → Psm) (s : State)
    (hwrite : (effect (gatedData s) (quietLatch s.psm (encode i))).write = false) :
    rise i effect s = { s with
      psm := effect (gatedData s) (quietLatch s.psm (encode i)), history := s.history ++ gatedSample s } := by
  rw [rise_eq, latch_eq_quietLatch, dataIn_eq_gatedData hi, sampleEvents_eq_gatedSample hi,
    writeEvents_eq_nil hwrite, List.append_nil]

end Sys2Proof.Proofs

/-! ### The flag no-operations: settled statements (R120, R121) -/

namespace Sys2Proof.Proofs
open Sys2Proof.Machine Sys2Proof.Reference

/-- The whole next state of NOP0 (R120). -/
theorem exec_nop0 (s : State) : exec .nop0 s = .next { s with
    psm := { quietLatch s.psm 0#4 with flag0 := true }, history := s.history ++ gatedSample s } :=
  congrArg Host.Outcome.next (rise_of_gated_of_no_write (by decide) _ s rfl)

/-- The whole next state of NOPF: `skip` is read before the latch clears it (R121). -/
theorem exec_nopf (s : State) : exec .nopf s = .next { s with
    psm := { quietLatch s.psm 15#4 with flagF := !s.psm.skip }, history := s.history ++ gatedSample s } :=
  congrArg Host.Outcome.next (rise_of_gated_of_no_write (by decide) _ s rfl)

/-- A pending skip makes every edge, whatever the lines carry, a NOPF (`fetch_of_skip`), and a NOPF that a skip forced
raises no `flag_f` (R102, R121, R251). -/
theorem skippedOn (c : Opcode) : SkippedOn c := by
  intro s rest hcalls hskip _
  have hfetch : fetch (s.withCalls rest) = .nopf := fetch_of_skip hskip
  rw [step_rising hcalls, hfetch, exec_nopf, State.withCalls_psm, hskip]
  rfl

/-- A raw byte decodes to the instructions of its two nibbles, in stream order (R82, R91). -/
theorem decodeBytes_packByte (a b : Opcode) : decodeBytes [packByte a b] = [decode a, decode b] := by
  simp [decodeBytes, splitBytes, splitByte_packByte]

/-- Settles O25: the next state is `exec_nop0`, any falling edge lowers `flag0` (`fallingEdge_psm`), a skip replaces
NOP0 as it does every opcode (`skippedOn`), and the pad nibble is decoded by `decodeBytes_packByte` (R120). -/
theorem nop0PulsesFlag0 : Obligations.Nop0PulsesFlag0 := by
  refine ⟨exec_nop0, ?lowered, rfl, skippedOn 0#4, fun c => decodeBytes_packByte c 0#4⟩
  case lowered =>
    intro s t _
    rw [fallingEdge_psm]
    rfl

/-- Settles O26: the next state is `exec_nopf`; a NOPF on the lines is silenced by a pending skip as every opcode is
(`skippedOn`) (R121). -/
theorem nopfPulsesFlagFUnlessForced : Obligations.NopfPulsesFlagFUnlessForced :=
  ⟨exec_nopf, skippedOn 15#4⟩

end Sys2Proof.Proofs

/-! ### Load, arithmetic and logic: settled statements (R130, R131, R133 to R136) -/

namespace Sys2Proof.Proofs
open Sys2Proof.Machine Sys2Proof.Reference

/-! The model's operators as the statements word them: facts about all values of one-bit words. -/

/-- The complement of the conjunction is 0 exactly when both bits are 1 (R134). -/
theorem nand_eq_ite : ∀ a b : Bit, ~~~(a &&& b) = if a = 1#1 ∧ b = 1#1 then 0#1 else 1#1 := by decide

/-- The disjunction is 1 exactly when a bit is (R135). -/
theorem or_eq_ite : ∀ a b : Bit, a ||| b = if a = 1#1 ∨ b = 1#1 then 1#1 else 0#1 := by decide

/-- The exclusive disjunction is 1 exactly when the bits differ (R136). -/
theorem xor_eq_ite : ∀ a b : Bit, a ^^^ b = if a = b then 0#1 else 1#1 := by decide

/-- Without a carry in, bit 0 of the sum is the exclusive disjunction (R131, R136). -/
theorem sumResult_zero : ∀ a b : Bit, sumResult a b 0#1 = a ^^^ b := by decide

/-- The carry in decides bit 0 of the sum, whatever the other two bits (R26). -/
theorem sumResult_zero_ne_one : ∀ a b : Bit, sumResult a b 0#1 ≠ sumResult a b 1#1 := by decide

/-! The whole next states, with the operators of the model. -/

/-- LD (R130). -/
theorem exec_ld (s : State) : exec .ld s = .next { s with
    psm := { quietLatch s.psm 1#4 with result := gatedData s }, history := s.history ++ gatedSample s } :=
  congrArg Host.Outcome.next (rise_of_gated_of_no_write (by decide) _ s rfl)

/-- ADD stores the two bits of the sum (R131). -/
theorem exec_add (s : State) : exec .add s = .next { s with
    psm := { quietLatch s.psm 2#4 with
      result := sumResult s.psm.result (gatedData s) s.psm.carry
      carry := sumCarry s.psm.result (gatedData s) s.psm.carry }
    history := s.history ++ gatedSample s } :=
  congrArg Host.Outcome.next (rise_of_gated_of_no_write (by decide) _ s rfl)

/-- SUB stores the two bits of the sum with the complement of the gated `data_in` (R132). -/
theorem exec_sub (s : State) : exec .sub s = .next { s with
    psm := { quietLatch s.psm 3#4 with
      result := sumResult s.psm.result (~~~gatedData s) s.psm.carry
      carry := sumCarry s.psm.result (~~~gatedData s) s.psm.carry }
    history := s.history ++ gatedSample s } :=
  congrArg Host.Outcome.next (rise_of_gated_of_no_write (by decide) _ s rfl)

/-- ONE (R133). -/
theorem exec_one (s : State) : exec .one s = .next { s with
    psm := { quietLatch s.psm 4#4 with result := 1#1, carry := 0#1 }, history := s.history ++ gatedSample s } :=
  congrArg Host.Outcome.next (rise_of_gated_of_no_write (by decide) _ s rfl)

/-- NAND (R134). -/
theorem exec_nand (s : State) : exec .nand s = .next { s with
    psm := { quietLatch s.psm 5#4 with result := ~~~(s.psm.result &&& gatedData s) }
    history := s.history ++ gatedSample s } :=
  congrArg Host.Outcome.next (rise_of_gated_of_no_write (by decide) _ s rfl)

/-- OR (R135). -/
theorem exec_or (s : State) : exec .or s = .next { s with
    psm := { quietLatch s.psm 6#4 with result := s.psm.result ||| gatedData s }
    history := s.history ++ gatedSample s } :=
  congrArg Host.Outcome.next (rise_of_gated_of_no_write (by decide) _ s rfl)

/-- XOR (R136). -/
theorem exec_xor (s : State) : exec .xor s = .next { s with
    psm := { quietLatch s.psm 7#4 with result := s.psm.result ^^^ gatedData s }
    history := s.history ++ gatedSample s } :=
  congrArg Host.Outcome.next (rise_of_gated_of_no_write (by decide) _ s rfl)

/-! Only ONE forgets both `result` and `carry`: every other instruction still shows the carry before it. -/

/-- Every instruction but ADD, SUB and ONE keeps `carry` (R27). -/
theorem exec_carry {i : Instr} (hadd : i ≠ .add) (hsub : i ≠ .sub) (hone : i ≠ .one) {s t : State}
    (hexec : exec i s = .next t) : t.psm.carry = s.psm.carry := by
  cases i with
  | add => exact absurd rfl hadd
  | sub => exact absurd rfl hsub
  | one => exact absurd rfl hone
  | _ => cases hexec; rfl

/-- The reset state, but for the value of `carry`. -/
def resetWithCarry (c : Bit) : State := State.reset.withPsm { State.reset.psm with carry := c }

/-- After any instruction but ONE, run from reset with `carry` 0 and with `carry` 1, `result` or `carry` differs: ADD and
SUB pass the carry on to bit 0 of their sum, the others keep it (R131 to R133). -/
theorem exec_shows_carry {i : Instr} (hone : i ≠ .one) {t u : State} (ht : exec i (resetWithCarry 0#1) = .next t)
    (hu : exec i (resetWithCarry 1#1) = .next u) : ¬ (t.psm.result = u.psm.result ∧ t.psm.carry = u.psm.carry) := by
  rintro ⟨hresult, hcarry⟩
  by_cases hadd : i = .add
  · subst hadd
    cases (exec_add _).symm.trans ht
    cases (exec_add _).symm.trans hu
    exact sumResult_zero_ne_one _ _ hresult
  by_cases hsub : i = .sub
  · subst hsub
    cases (exec_sub _).symm.trans ht
    cases (exec_sub _).symm.trans hu
    exact sumResult_zero_ne_one _ _ hresult
  · rw [exec_carry hadd hsub hone ht, exec_carry hadd hsub hone hu] at hcarry
    exact absurd hcarry (by decide)

/-- An instruction leaves the same `result` and `carry` whatever the state before exactly if it is ONE (R133). -/
theorem result_carry_fixed_iff (i : Instr) :
    (∃ r c : Bit, ∀ s t : State, exec i s = .next t → t.psm.result = r ∧ t.psm.carry = c) ↔ i = .one := by
  constructor
  · rintro ⟨r, c, hfixed⟩
    by_contra hone
    obtain ⟨_, ht⟩ := exec_is_rise i (resetWithCarry 0#1)
    obtain ⟨_, hu⟩ := exec_is_rise i (resetWithCarry 1#1)
    obtain ⟨htr, htc⟩ := hfixed _ _ ht
    obtain ⟨hur, huc⟩ := hfixed _ _ hu
    exact exec_shows_carry hone ht hu ⟨htr.trans hur.symm, htc.trans huc.symm⟩
  · rintro rfl
    refine ⟨1#1, 0#1, fun s t hexec => ?_⟩
    cases (exec_one s).symm.trans hexec
    exact ⟨rfl, rfl⟩

/-- Settles O27: the next state is `exec_ld` (R130). -/
theorem ldLoadsDataIn : Obligations.LdLoadsDataIn := exec_ld

/-- Settles O28: the two bits that `exec_add` stores hold the exact sum (`sum_toNat`) (R131). -/
theorem addIsTheFullAdder : Obligations.AddIsTheFullAdder := fun s =>
  ⟨_, _, sum_toNat s.psm.result (gatedData s) s.psm.carry, exec_add s⟩

/-- Settles O30: the next state is `exec_one`; no other instruction fixes both registers, as the carry before it still
shows (`result_carry_fixed_iff`) (R133). -/
theorem oneSetsResultClearsCarry : Obligations.OneSetsResultClearsCarry := ⟨exec_one, result_carry_fixed_iff⟩

/-- Settles O31: the next state is `exec_nand`, its operator read by `nand_eq_ite` (R134). -/
theorem nandOfResultAndDataIn : Obligations.NandOfResultAndDataIn := by
  intro s
  rw [exec_nand, nand_eq_ite]

/-- Settles O32: the next state is `exec_or`, its operator read by `or_eq_ite` (R135). -/
theorem orOfResultAndDataIn : Obligations.OrOfResultAndDataIn := by
  intro s
  rw [exec_or, or_eq_ite]

/-- Settles O33: the next state is `exec_xor`, its operator read by `xor_eq_ite`; without a carry in, ADD stores the same
`result` (`sumResult_zero`) (R136). -/
theorem xorOfResultAndDataIn : Obligations.XorOfResultAndDataIn := by
  refine ⟨fun s => by rw [exec_xor, xor_eq_ite], ?sameAsAdd⟩
  case sameAsAdd =>
    intro s t u hcarry hxor hadd
    cases (exec_xor s).symm.trans hxor
    cases (exec_add s).symm.trans hadd
    change _ = sumResult s.psm.result (gatedData s) s.psm.carry
    rw [hcarry, sumResult_zero]

end Sys2Proof.Proofs

/-! ### Control: settled statements (R160) -/

namespace Sys2Proof.Proofs
open Sys2Proof.Machine Sys2Proof.Reference

/-- The whole next state of JMP (R160). -/
theorem exec_jmp (s : State) : exec .jmp s = .next { s with
    psm := { quietLatch s.psm 12#4 with jump := true }, history := s.history ++ gatedSample s } :=
  congrArg Host.Outcome.next (rise_of_gated_of_no_write (by decide) _ s rfl)

/-- Settles O38: the next state is `exec_jmp`, any falling edge lowers `jump` (`fallingEdge_psm`), and a skip replaces JMP
as it does every opcode (`skippedOn`) (R160). -/
theorem jmpPulsesJump : Obligations.JmpPulsesJump := by
  refine ⟨exec_jmp, ?lowered, skippedOn 12#4⟩
  case lowered =>
    intro s t _
    rw [fallingEdge_psm]
    rfl

end Sys2Proof.Proofs

/-! ### The raw encoder: what its operations answer (R171, R172, R178) -/

namespace Sys2Proof.Proofs
open Sys2Proof.Machine Sys2Proof.Reference

/-- A raw byte goes out into a sink with room (R58, R171). -/
theorem reWrite_of_room {s : State} (hroom : s.reSink.room ≠ some 0) (e : RawEncoder) (b : Byte) (n : Nat) :
    reWrite e b n s = (s.withRe e
      { accepted := s.reSink.accepted ++ [b], room := s.reSink.room.map (· - 1) }).answer .ok := by
  unfold reWrite
  rcases Sink.put_cases s.reSink b with ⟨hfull, _⟩ | ⟨_, hput⟩
  · exact absurd hfull hroom
  · rw [hput]

/-- Without room the write fails, and so does the operation (R58, R178). -/
theorem reWrite_of_full {s : State} (hfull : s.reSink.room = some 0) (e : RawEncoder) (b : Byte) (n : Nat) :
    reWrite e b n s = reFail e s.reSink n s := by
  unfold reWrite
  rcases Sink.put_cases s.reSink b with ⟨_, hput⟩ | ⟨hroom, _⟩
  · rw [hput]
  · exact absurd hfull hroom

/-- The first opcode of a pair is kept (R171). -/
theorem reEmit_first {s : State} (hfailed : s.re.failed = false) (hpending : s.re.pending = false) (op : Opcode) :
    reEmit op s = (s.withRe { acc := op, pending := true, failed := false, count := s.re.count + 1 }
      s.reSink).answer .ok := by
  simp [reEmit, hfailed, hpending]

/-- The step that keeps the first opcode of a pair (R171). -/
theorem step_reEmit_first {s : State} {op : Opcode} {rest : List Call} (hcalls : s.calls = .reEmit op :: rest)
    (hfailed : s.re.failed = false) (hpending : s.re.pending = false) :
    step s = .next (((s.withCalls rest).withRe
      { acc := op, pending := true, failed := false, count := s.re.count + 1 } s.reSink).answer .ok) := by
  rw [step_reEmit hcalls, reEmit_first (s := s.withCalls rest) hfailed hpending]
  rfl

/-- The second opcode of a pair is written with the first (R171). -/
theorem reEmit_second {s : State} (hfailed : s.re.failed = false) (hpending : s.re.pending = true) (op : Opcode) :
    reEmit op s = reWrite { acc := s.re.acc, pending := false, failed := false, count := s.re.count + 1 }
      (packByte s.re.acc op) s.re.count s := by
  simp [reEmit, hfailed, hpending]

/-- A failed encoder raises again, without writing (R178). -/
theorem reEmit_of_failed {s : State} (hfailed : s.re.failed = true) (op : Opcode) :
    reEmit op s = (s.withRe { s.re with count := s.re.count + 1 } s.reSink).answer
      (.raised (.sinkWriteFailure (some s.re.count))) := by
  simp [reEmit, hfailed]

/-- With nothing pending, `finish` writes nothing (R172). -/
theorem reFinish_of_idle {s : State} (hfailed : s.re.failed = false) (hpending : s.re.pending = false) :
    reFinish s = s.answer .ok := by
  simp [reFinish, hfailed, hpending]

/-- A pending opcode is written with NOP0's code (R172). -/
theorem reFinish_of_pending {s : State} (hfailed : s.re.failed = false) (hpending : s.re.pending = true) :
    reFinish s = reWrite { s.re with pending := false } (packByte s.re.acc 0#4) (s.re.count - 1) s := by
  simp [reFinish, hfailed, hpending]

/-- A sink failure is a `RawFailure` of the call in hand (R178). -/
theorem rawFailure_reFail (rest : List Call) (e : RawEncoder) (k : Sink Byte) (n : Nat) (s : State) :
    RawFailure rest (some n) s (reFail e k n (s.withCalls rest)) := ⟨rfl, rfl⟩

end Sys2Proof.Proofs

/-! ### The raw encoder: settled statements (R171, R175) -/

namespace Sys2Proof.Proofs
open Sys2Proof.Machine Sys2Proof.Reference

/-- Settles O6, by the branches of `emit`: nothing pending (`step_reEmit_first`), a pair complete (`reEmit_second`) with
and without room for its byte, and an encoder that has failed (`reEmit_of_failed`) (R171). -/
theorem rawEmitWritesOnEverySecondCall : Obligations.RawEmitWritesOnEverySecondCall := by
  intro s op rest hcalls
  refine ⟨fun hfailed hpending => ⟨_, step_reEmit_first hcalls hfailed hpending⟩, ?second, ?sinkFails, ?failed⟩
  all_goals rw [step_reEmit hcalls]
  case second =>
    intro hfailed hpending hroom
    rw [reEmit_second (s := s.withCalls rest) hfailed hpending, reWrite_of_room (s := s.withCalls rest) hroom]
    exact ⟨_, _, _, packByte_toNat s.re.acc op, rfl⟩
  case sinkFails =>
    intro hfailed hpending hfull
    rw [reEmit_second (s := s.withCalls rest) hfailed hpending, reWrite_of_full (s := s.withCalls rest) hfull]
    exact ⟨_, _, rfl, rawFailure_reFail rest _ _ _ s⟩
  case failed =>
    intro hfailed
    rw [reEmit_of_failed (s := s.withCalls rest) hfailed]
    exact ⟨_, _, rfl, ⟨hfailed, rfl⟩, rfl⟩

/-- RE between two pairs, with a sink that never fails: where the runs of R174 and R175 start. -/
structure RawReady (s : State) : Prop where
  pending : s.re.pending = false
  failed : s.re.failed = false
  room : s.reSink.room = none

/-- Two emits in a row write one byte, and RE is between two pairs again (R171). -/
theorem run_reEmit_pair {s : State} {c d : Opcode} {rest : List Call} (hready : RawReady s)
    (hcalls : s.calls = .reEmit c :: .reEmit d :: rest) :
    ∃ t, Sys2Proof.core.run 2 s = .next t ∧ t.calls = rest ∧ RawReady t ∧
      t.reSink.accepted = s.reSink.accepted ++ [packByte c d] := by
  obtain ⟨hpending, hfailed, hroom⟩ := hready
  rw [run_succ 1 (step_reEmit_first hcalls hfailed hpending), run_succ 0 (step_reEmit rfl),
    reEmit_second rfl rfl, reWrite_of_room (by simp [hroom]), run_zero]
  exact ⟨_, rfl, rfl, ⟨rfl, rfl, by simp [hroom]⟩, rfl⟩

/-- A last opcode without a partner is written by `finish`, padded with NOP0's code (R172). -/
theorem run_reEmit_reFinish {s : State} {c : Opcode} {rest : List Call} (hready : RawReady s)
    (hcalls : s.calls = .reEmit c :: .reFinish :: rest) :
    ∃ t, Sys2Proof.core.run 2 s = .next t ∧ t.calls = rest ∧
      t.reSink.accepted = s.reSink.accepted ++ [packByte c 0#4] := by
  obtain ⟨hpending, hfailed, hroom⟩ := hready
  rw [run_succ 1 (step_reEmit_first hcalls hfailed hpending), run_succ 0 (step_reFinish rfl),
    reFinish_of_pending rfl rfl, reWrite_of_room (by simp [hroom]), run_zero]
  exact ⟨_, rfl, rfl, rfl⟩

/-- Emitting a program and finishing appends its raw stream to what the sink has accepted, by induction on the pairs of
the program (R82, R176). -/
theorem run_raw_program {s : State} (ops : List Opcode) (hready : RawReady s)
    (hcalls : s.calls = ops.map .reEmit ++ [.reFinish]) :
    ∃ t, Sys2Proof.core.run (ops.length + 1) s = .next t ∧ t.calls = [] ∧
      t.reSink.accepted = s.reSink.accepted ++ packBytes ops := by
  induction ops using packBytes.induct generalizing s with
  | case1 =>
    obtain ⟨hpending, hfailed, -⟩ := hready
    have hstep : step s = .next ((s.withCalls []).answer .ok) := by
      rw [step_reFinish hcalls, reFinish_of_idle (s := s.withCalls []) hfailed hpending]
    exact ⟨_, run_succ 0 hstep, rfl, by simp [packBytes]⟩
  | case2 c => exact run_reEmit_reFinish hready hcalls
  | case3 c d rest ih =>
    obtain ⟨u, hpair, hucalls, huready, huaccepted⟩ := run_reEmit_pair hready hcalls
    obtain ⟨t, hrest, htcalls, htaccepted⟩ := ih huready hucalls
    refine ⟨t, ?_, htcalls, by simp [htaccepted, huaccepted, packBytes]⟩
    calc Sys2Proof.core.run ((c :: d :: rest).length + 1) s
        = Sys2Proof.core.run (2 + (rest.length + 1)) s := by rw [Nat.add_comm 2]; rfl
      _ = .next t := by rw [run_add 2 _ hpair, hrest]

/-- Splitting a program's raw stream gives the program back, and the pad nibble after a program of odd length (R82,
R91). -/
theorem splitBytes_packBytes (ops : List Opcode) :
    splitBytes (packBytes ops) = ops ++ (if ops.length % 2 = 1 then [0#4] else []) := by
  induction ops using packBytes.induct with
  | case1 => rfl
  | case2 c => simp [packBytes, splitBytes, splitByte_packByte]
  | case3 c d rest ih =>
    calc splitBytes (packBytes (c :: d :: rest))
        = splitByte (packByte c d) ++ splitBytes (packBytes rest) := rfl
      _ = c :: d :: (rest ++ if rest.length % 2 = 1 then [0#4] else []) := by rw [splitByte_packByte, ih]; rfl
      _ = (c :: d :: rest) ++ if (c :: d :: rest).length % 2 = 1 then [0#4] else [] := by
        simp [Nat.add_assoc]

/-- Settles O10: what the run writes is the program's raw stream (`run_raw_program`), which splits into the program and
its pad (`splitBytes_packBytes`); the pad decodes to NOP0 (R175). -/
theorem rawRoundTrip : Obligations.RawRoundTrip := by
  intro s ops hcalls hpending hfailed hroom
  obtain ⟨t, hrun, -, haccepted⟩ := run_raw_program ops ⟨hpending, hfailed, hroom⟩ hcalls
  have hsplit := splitBytes_packBytes ops
  refine ⟨t, packBytes ops, hrun, haccepted, hsplit, ?_⟩
  rw [decodeBytes, hsplit, List.map_append, apply_ite (List.map decode)]
  rfl

end Sys2Proof.Proofs

/-! ### The stream reader: what a command character does (R200, R204 to R206) -/

namespace Sys2Proof.Proofs
open Sys2Proof.Machine Sys2Proof.Reference

section
variable {s : State} (hwf : s.alphabet.WellFormed) (hcalls : s.calls = []) (hpulse : s.sr.pulseHigh = false)
  (hstopped : s.sr.stopped = false)
include hwf hcalls hpulse hstopped

/-- A reader between two characters consumes one command character and obeys it (R200). -/
theorem driverTurn_command {c : Char} {rest : List Char} {k : Command} (hmem : c ∈ s.alphabet.chars)
    (hcommand : commandOf s.alphabet c = some k) (hinput : s.sr.input = c :: rest) :
    driverTurn s = obey k { s with sr := { s.sr with input := rest, position := s.sr.position + 1 } } := by
  rw [step_readChar hcalls hpulse hstopped hinput, readChar_command (hwf.2 c hmem) hcommand,
    Reader.advance_one hinput]
  rfl

/-- A line command sets its line in the driver's lines (R204). -/
theorem step_lineChar {k : Fin 4} {high : Bool} {rest : List Char}
    (hinput : s.sr.input = lineChar s.alphabet k high :: rest) :
    step s = .next { s with
      sr := { s.sr with input := rest, position := s.sr.position + 1, lines := setLine s.sr.lines k high } } := by
  rw [step, driverTurn_command hwf hcalls hpulse hstopped (lineChar_mem _ k high) (commandOf_lineChar hwf k high)
    hinput]
  rfl

/-- A data command sets the driver's data line (R204). -/
theorem step_dataChar {v : Bit} {rest : List Char} (hinput : s.sr.input = dataChar s.alphabet v :: rest) :
    step s = .next { s with
      sr := { s.sr with input := rest, position := s.sr.position + 1, dataLine := v } } := by
  rw [step, driverTurn_command hwf hcalls hpulse hstopped (dataChar_mem _ v) (commandOf_dataChar hwf v) hinput]
  rfl

end

end Sys2Proof.Proofs

/-! ### The stream reader: settled statements (R204) -/

namespace Sys2Proof.Proofs
open Sys2Proof.Machine Sys2Proof.Reference

/-- Settles O54: a line command is one `setLine` (`step_lineChar`), which sets its line and no other
(`setLine_getLsbD`); `DH` and `DL` are the two characters of `step_dataChar` (R204). -/
theorem lineCommandsSetTheLevels : Obligations.LineCommandsSetTheLevels := by
  intro s rest hwf hcalls hpulse hstopped
  refine ⟨s.sr.position + 1, fun k high hline => ?_, fun hhigh => ?_, fun hlow => ?_⟩
  · exact ⟨_, setLine_getLsbD s.sr.lines k high, step_lineChar hwf hcalls hpulse hstopped hline⟩
  · exact step_dataChar hwf hcalls hpulse hstopped (v := 1#1) hhigh
  · exact step_dataChar hwf hcalls hpulse hstopped (v := 0#1) hlow

end Sys2Proof.Proofs

/-! ### Reset and hazards: settled statements (R251) -/

namespace Sys2Proof.Proofs
open Sys2Proof.Machine Sys2Proof.Reference

/-- Settles O20: a pending skip makes the edge fetch NOPF whatever the lines carry (`fetch_of_skip`), and the forced NOPF
raises no pulse (`exec_nopf`); `skippedOn` draws the step from these two (R251). -/
theorem forcedSkipIsSilent : Obligations.ForcedSkipIsSilent := skippedOn

end Sys2Proof.Proofs

/-! ### Subtraction, stores, enables, return and skip: settled statements (R132, R140, R141, R150, R151, R161, R162) -/

namespace Sys2Proof.Proofs
open Sys2Proof.Machine Sys2Proof.Reference

/-! The complement of one bit, in the numbers of the spec. -/

/-- The complement of a bit is 1 minus it (R132, R141). -/
theorem toNat_not_bit (b : Bit) : (~~~b).toNat = 1 - b.toNat := BitVec.toNat_not

/-- With a carry in, adding the complement carries out exactly where no borrow is needed (R132 (b), R138). -/
theorem sumCarry_not_one : ∀ a b : Bit, sumCarry a (~~~b) 1#1 = 1#1 ↔ b.toNat ≤ a.toNat := by decide

/-! The whole next states that are still missing. -/

/-- The whole next state of a rising edge that is no IEN: the effect on the latched PSM, the gated sample, and a write
where `write` rises (R107). -/
theorem rise_of_gated {i : Instr} (hi : i ≠ .ien) (effect : Bit → Psm → Psm) (s : State) :
    rise i effect s = { s with
      psm := effect (gatedData s) (quietLatch s.psm (encode i))
      history := s.history ++ gatedSample s ++ writeEvents (effect (gatedData s) (quietLatch s.psm (encode i))) } := by
  rw [rise_eq, latch_eq_quietLatch, dataIn_eq_gatedData hi, sampleEvents_eq_gatedSample hi, List.append_assoc]

/-- A store records the bit on `data_out` exactly when outputs are enabled (R54, R140). -/
theorem writeEvents_store (p : Psm) (b : Bit) :
    writeEvents { p with dataOut := b, write := isHigh p.outputEnable } =
      if p.outputEnable = 1#1 then [.write b] else [] := by
  simp [writeEvents, isHigh_iff]

/-- The whole next state of a store of `value result` (R140, R141). -/
theorem rise_store {i : Instr} (hi : i ≠ .ien) (value : Bit → Bit) (s : State) :
    rise i (fun _ p => { p with dataOut := value p.result, write := isHigh p.outputEnable }) s = { s with
      psm := { quietLatch s.psm (encode i) with
        dataOut := value s.psm.result, write := decide (s.psm.outputEnable = 1#1) }
      history := s.history ++ gatedSample s ++
        (if s.psm.outputEnable = 1#1 then [.write (value s.psm.result)] else []) } := by
  rw [rise_of_gated hi, writeEvents_store]
  rfl

/-- STO stores `result` (R140). -/
theorem exec_sto (s : State) : exec .sto s = .next { s with
    psm := { quietLatch s.psm 8#4 with dataOut := s.psm.result, write := decide (s.psm.outputEnable = 1#1) }
    history := s.history ++ gatedSample s ++ (if s.psm.outputEnable = 1#1 then [.write s.psm.result] else []) } :=
  congrArg Host.Outcome.next (rise_store (by decide) id s)

/-- STOC stores the complement of `result` (R141). -/
theorem exec_stoc (s : State) : exec .stoc s = .next { s with
    psm := { quietLatch s.psm 9#4 with dataOut := ~~~s.psm.result, write := decide (s.psm.outputEnable = 1#1) }
    history := s.history ++ gatedSample s ++ (if s.psm.outputEnable = 1#1 then [.write (~~~s.psm.result)] else []) } :=
  congrArg Host.Outcome.next (rise_store (by decide) (~~~·) s)

/-- IEN takes the data line, sampled whatever `input_enable` was (R150). -/
theorem exec_ien (s : State) : exec .ien s = .next { s with
    psm := { quietLatch s.psm 10#4 with inputEnable := s.sr.dataLine }
    history := s.history ++ [.sampled s.sr.dataLine] } := by
  have hsample : sampleEvents .ien s = [.sampled s.sr.dataLine] := by simp [sampleEvents, samples]
  change Host.Outcome.next (rise .ien _ s) = _
  rw [rise_eq, dataIn_ien, hsample, writeEvents_eq_nil rfl, List.append_nil]
  rfl

/-- OEN (R151). -/
theorem exec_oen (s : State) : exec .oen s = .next { s with
    psm := { quietLatch s.psm 11#4 with outputEnable := gatedData s }, history := s.history ++ gatedSample s } :=
  congrArg Host.Outcome.next (rise_of_gated_of_no_write (by decide) _ s rfl)

/-- RTN (R161). -/
theorem exec_rtn (s : State) : exec .rtn s = .next { s with
    psm := { quietLatch s.psm 13#4 with ret := true, skip := true }, history := s.history ++ gatedSample s } :=
  congrArg Host.Outcome.next (rise_of_gated_of_no_write (by decide) _ s rfl)

/-- The test of SKZ, as the statements word it (R162). -/
theorem not_isHigh_eq_decide : ∀ b : Bit, (!isHigh b) = decide (b = 0#1) := by decide

/-- SKZ (R162). -/
theorem exec_skz (s : State) : exec .skz s = .next { s with
    psm := { quietLatch s.psm 14#4 with skip := decide (s.psm.result = 0#1) }
    history := s.history ++ gatedSample s } := by
  rw [← not_isHigh_eq_decide]
  exact congrArg Host.Outcome.next (rise_of_gated_of_no_write (by decide) _ s rfl)

/-! The statements. -/

/-- Settles O29: the two bits that `exec_sub` stores hold the exact sum with the complement (`sum_toNat`,
`toNat_not_bit`), and with carry 1 the new carry compares the operands (`sumCarry_not_one`) (R132). -/
theorem subAddsTheComplement : Obligations.SubAddsTheComplement := by
  intro s
  refine ⟨_, _, ?sum, ?borrow, exec_sub s⟩
  case sum => rw [sum_toNat, adderSum, toNat_not_bit]
  case borrow =>
    intro hcarry
    rw [hcarry, sumCarry_not_one]

/-- Settles O34: the next state is `exec_sto`; a falling edge lowers `write` and keeps `data_out` (`fallingEdge_psm`); a
skip replaces STO as it does every opcode (`skippedOn`) (R140). -/
theorem stoDrivesResult : Obligations.StoDrivesResult := by
  refine ⟨exec_sto, ?falling, skippedOn 8#4⟩
  case falling =>
    intro s t hexec
    cases (exec_sto s).symm.trans hexec
    exact ⟨rfl, rfl⟩

/-- Settles O35: the next state is `exec_stoc`, its bit read by `toNat_not_bit`; the falling edge and the skip are as
for STO (R141). -/
theorem stocDrivesTheComplement : Obligations.StocDrivesTheComplement :=
  ⟨fun s => ⟨_, toNat_not_bit s.psm.result, exec_stoc s⟩, fun _ _ _ => ⟨rfl, rfl⟩, skippedOn 9#4⟩

/-- Settles O36: the next state is `exec_ien`, which samples whatever `input_enable` was; a skip replaces IEN
(`skippedOn`), and then the sample is gated (R150). -/
theorem ienAlwaysSamples : Obligations.IenAlwaysSamples := ⟨exec_ien, skippedOn 10#4⟩

/-- Settles O37: the next state is `exec_oen` (R151). -/
theorem oenTakesGatedData : Obligations.OenTakesGatedData := exec_oen

/-- Settles O39: the next state is `exec_rtn`; the falling edge lowers `return` and is no edge that consumes a skip
(`fallingEdge_psm`) (R161). -/
theorem rtnPulsesReturnAndSkips : Obligations.RtnPulsesReturnAndSkips := by
  refine ⟨exec_rtn, fun s t hexec => ?_⟩
  cases (exec_rtn s).symm.trans hexec
  exact ⟨rfl, rfl⟩

/-- Settles O40: the next state is `exec_skz` (R162). -/
theorem skzSkipsOnZero : Obligations.SkzSkipsOnZero := exec_skz

/-- Settles O45: `exec_ien` enables the inputs, so OEN's gated operand is the line itself (`exec_oen`), and `exec_one`
fixes `result` and `carry` (R245). -/
theorem threeInstructionsForgetThePowerOnValues : Obligations.ThreeInstructionsForgetThePowerOnValues := by
  intro s v
  exact ⟨_, _, _, exec_ien _, exec_oen _, exec_one _, rfl, rfl, rfl, rfl, rfl, rfl⟩

end Sys2Proof.Proofs

/-! ### The rising edge of any instruction (R101 to R107) -/

namespace Sys2Proof.Proofs
open Sys2Proof.Machine Sys2Proof.Reference

/-! The operators of the model in the arithmetic of the spec's `onRisingEdge`. -/

/-- The sum bit as the spec's remainder (R131). -/
theorem sumResult_eq_mod : ∀ a b c : Bit, sumResult a b c = BitVec.ofNat 1 ((a.toNat + b.toNat + c.toNat) % 2) := by
  decide

/-- NAND as 1 minus the product (R134). -/
theorem not_and_eq_ofNat : ∀ a b : Bit, ~~~(a &&& b) = BitVec.ofNat 1 (1 - a.toNat * b.toNat) := by decide

/-- The complement as 1 minus the bit (R141). -/
theorem not_eq_ofNat : ∀ a : Bit, ~~~a = BitVec.ofNat 1 (1 - a.toNat) := by decide

/-- A level read as a condition, as the spec tests it (R9). -/
theorem isHigh_eq_decide (b : Bit) : isHigh b = decide (b = 1#1) := rfl

/-! What every instruction does, said once. -/

/-- The effect of an instruction depends on nothing but the instruction and PSM (R3, R105). -/
theorem exec_is_rise_of_psm (i : Instr) (p : Psm) :
    ∃ effect, ∀ s : State, s.psm = p → exec i s = .next (rise i effect s) := by
  cases i with
  | nopf => exact ⟨fun _ q => { q with flagF := !p.skip }, by rintro s rfl; rfl⟩
  | _ => exact ⟨_, fun _ _ => rfl⟩

/-- An instruction changes PSM and appends to the event history its sample and then its write, and nothing else
(R3, R60, R107). -/
theorem eq_of_exec_next {i : Instr} {s t : State} (hexec : exec i s = .next t) :
    t = { s with psm := t.psm, history := s.history ++ (sampleEvents i s ++ writeEvents t.psm) } := by
  obtain ⟨effect, heffect⟩ := exec_is_rise i s
  cases heffect.symm.trans hexec
  rw [rise_eq]

/-- PSM after a rising edge: the effect on the latched PSM (R105). -/
theorem rise_psm (i : Instr) (effect : Bit → Psm → Psm) (s : State) :
    (rise i effect s).psm = effect (dataIn i s) (quietLatch s.psm (encode i)) := rfl

/-! The Instruction Reader and the edge it selects. -/

/-- The instruction that the edge fetches has the opcode of the spec's edge (R90, R102). -/
theorem encode_fetch (s : State) : encode (fetch s) = opcodeOf s.psm s.sr.lines := by
  cases hskip : s.psm.skip with
  | true => simp [fetch_of_skip hskip, opcodeOf, hskip, encode]
  | false => simp [fetch_of_no_skip hskip, opcodeOf, hskip, encode_decode]

section
variable {i : Instr} {s : State} (hopcode : encode i = opcodeOf s.psm s.sr.lines)
include hopcode

/-- Model and spec sample on the same edges (R52, R104). -/
theorem samples_eq_sampledOn : samples i s.psm = sampledOn s.psm s.sr.lines := by
  have hien : encode i = 10#4 ↔ i = .ien := by cases i <;> decide
  rw [Bool.eq_iff_iff]
  simp [samples, sampledOn, ← hopcode, hien, isHigh_iff]

/-- `data_in` of model and spec (R104). -/
theorem dataIn_eq_dataInOn : dataIn i s = dataInOn s.psm s.sr.lines s.sr.dataLine := by
  rw [dataIn, dataInOn, samples_eq_sampledOn hopcode]

/-- PSM after the instruction that the lines and the skip select is the spec's `onRisingEdge`, instruction by
instruction (R107). -/
theorem exec_psm {t : State} (hexec : exec i s = .next t) :
    t.psm = onRisingEdge s.psm s.sr.lines s.sr.dataLine := by
  have hdata := dataIn_eq_dataInOn hopcode
  unfold onRisingEdge
  rw [← hopcode, ← hdata]
  cases i with
  | add | sub => cases hexec; simp [rise_psm, quietLatch, encode, sumResult_eq_mod, sumCarry, adderSum]
  | nand => cases hexec; simp [rise_psm, quietLatch, encode, not_and_eq_ofNat]
  | sto | stoc => cases hexec; simp [rise_psm, quietLatch, encode, isHigh_eq_decide, not_eq_ofNat]; rfl
  | skz => cases hexec; simp [rise_psm, quietLatch, encode, not_isHigh_eq_decide]; rfl
  | nopf => cases hexec; simp [rise_psm, quietLatch, encode]
  | _ => cases hexec; rfl

/-- The events of the edge are those of the spec (R107). -/
theorem edgeEvents_eq {t : State} (hexec : exec i s = .next t) :
    sampleEvents i s ++ writeEvents t.psm = edgeEvents s.psm s.sr.lines s.sr.dataLine := by
  rw [sampleEvents, edgeEvents, exec_psm hopcode hexec, samples_eq_sampledOn hopcode]
  rfl

end

/-- The instruction that the edge fetches takes the state to the one of the spec's `onRisingEdge`, and changes nothing
else (R107). -/
theorem exec_fetch (s : State) : exec (fetch s) s = .next { s with
    psm := onRisingEdge s.psm s.sr.lines s.sr.dataLine
    history := s.history ++ edgeEvents s.psm s.sr.lines s.sr.dataLine } := by
  obtain ⟨effect, hexec⟩ := exec_is_rise (fetch s) s
  rw [← exec_psm (encode_fetch s) hexec, ← edgeEvents_eq (encode_fetch s) hexec, hexec]
  exact congrArg Host.Outcome.next (eq_of_exec_next hexec)

end Sys2Proof.Proofs

/-! ### The rising edge: settled statements (R102, R107, R253) -/

namespace Sys2Proof.Proofs
open Sys2Proof.Machine Sys2Proof.Reference

/-- Settles O15: a rising edge runs what the Instruction Reader fetches (`step_rising`), the lines' instruction or a
forced NOPF (`fetch_of_no_skip`, `fetch_of_skip`) (R102). -/
theorem stepRunsTheSelectedInstruction : Obligations.StepRunsTheSelectedInstruction := by
  intro s rest hcalls
  rw [step_rising hcalls]
  refine ⟨fun hskip => ?_, fun hskip => ?_⟩
  · rw [fetch_of_no_skip (s := s.withCalls rest) hskip]
    rfl
  · rw [fetch_of_skip (s := s.withCalls rest) hskip]
    rfl

/-- Settles O16: the driven opcode is the one fetched (`fetch_driveOpcode`), and it decodes to the instruction
(`decode_encode`) (log entry 5). -/
theorem fetchWordRunsNext : Obligations.FetchWordRunsNext := by
  intro s i
  have hword : BitVec.ofNat 4 (encode i).toNat = encode i := BitVec.ofNat_toNat 4 _
  have hcalls : (s.driveOpcode (encode i)).calls = .risingEdge :: s.calls := rfl
  have hfetch : fetch ((s.driveOpcode (encode i)).withCalls s.calls) = i :=
    (fetch_driveOpcode s (encode i)).trans (decode_encode i)
  rw [State.withFetchWord, hword, step_rising hcalls, hfetch]
  rfl

/-- Settles O18: a rising edge runs the fetched instruction (`step_rising`), which is the spec's function of PSM, the
lines and the data line (`exec_fetch`) (R107). -/
theorem risingEdgeIsTheSpecsFunction : Obligations.RisingEdgeIsTheSpecsFunction := by
  intro s rest hcalls
  rw [step_rising hcalls, exec_fetch]
  rfl

/-- Settles O21: the forced NOPF (`skippedOn`) leaves no skip, so the next edge runs the lines' instruction
(`stepRunsTheSelectedInstruction`). RTN held on the lines: its own edge sets `skip` (`exec_rtn`), the falling edge keeps
it, and the next rising edge is a forced NOPF (R161 (c), R253). -/
theorem skipsDoNotChain : Obligations.SkipsDoNotChain := by
  refine ⟨fun s rest hcalls hskip => ?consumed, fun s hcalls hskip hlines => ?heldRtn⟩
  case consumed =>
    refine ⟨_, skippedOn s.sr.lines s _ hcalls hskip rfl, rfl, rfl, ?_⟩
    rw [(stepRunsTheSelectedInstruction _ rest rfl).1 rfl]
  case heldRtn =>
    have hrtn : decode s.sr.lines = .rtn := by rw [hlines]; rfl
    have hstep := (stepRunsTheSelectedInstruction s _ hcalls).1 hskip
    rw [hrtn, exec_rtn] at hstep
    exact ⟨_, _, _, _, hstep, step_falling rfl, skippedOn s.sr.lines _ _ rfl rfl rfl, step_falling rfl,
      rfl, rfl, rfl, rfl, rfl, rfl, rfl, rfl, rfl, rfl⟩

end Sys2Proof.Proofs

/-! ### All instructions: settled statements (R3, R29, R52, R54, R60, R73) -/

namespace Sys2Proof.Proofs
open Sys2Proof.Machine Sys2Proof.Reference

/-- A level that is not high is 0 (R9). -/
theorem isHigh_eq_false_iff : ∀ b : Bit, isHigh b = false ↔ b = 0#1 := by decide

/-- Settles O41, instruction by instruction: each instruction's effect is an update of the fields it names, so a field
that it does not name is kept (R21, R25, R27, R29, R30, R34, R73). -/
theorem onlyTheNamedOpcodesWriteARegister : Obligations.OnlyTheNamedOpcodesWriteARegister := by
  intro i s t hexec
  cases i <;> cases hexec <;> simp [rise_eq, encode, isHigh_eq_false_iff]

/-- Settles O42: `eq_of_exec_next` gives the frame and the two parts of the history, a sample where the edge samples and
a write where `write` is high (R52, R54, R60). -/
theorem instructionsTouchOnlyPsmAndHistory : Obligations.InstructionsTouchOnlyPsmAndHistory := by
  intro i s t hexec
  refine ⟨sampleEvents i s, writeEvents t.psm, ?frame, ?sample, ?sampled, ?write, ?written⟩
  case frame => rw [List.append_assoc]; exact eq_of_exec_next hexec
  case sample => exact (ite_eq_or_eq _ _ _).symm
  case sampled => simp [sampleEvents, samples, isHigh_iff, or_iff_not_imp_left]
  case write => exact (ite_eq_or_eq _ _ _).symm
  case written => simp [writeEvents]

/-- With inputs disabled, `data_in` of every opcode but IEN is 0 (R29, R104). -/
theorem gatedData_of_disabled {s : State} (hdisabled : s.psm.inputEnable = 0#1) : gatedData s = 0#1 := by
  simp [gatedData, hdisabled]

/-- With inputs disabled, no opcode but IEN samples (R29, R52). -/
theorem gatedSample_of_disabled {s : State} (hdisabled : s.psm.inputEnable = 0#1) : gatedSample s = [] := by
  simp [gatedSample, hdisabled]

/-- Settles O43: the effect is the same in both states (`exec_is_rise_of_psm`), and with inputs disabled neither
`data_in` nor the sample shows the line (`gatedData_of_disabled`, `gatedSample_of_disabled`) (R29, R104). -/
theorem disabledInputsHideTheDataLine : Obligations.DisabledInputsHideTheDataLine := by
  intro i s t b hien hdisabled hexec
  obtain ⟨effect, heffect⟩ := exec_is_rise_of_psm i s.psm
  cases (heffect s rfl).symm.trans hexec
  rw [heffect { s with sr := { s.sr with dataLine := b } } rfl, rise_of_gated hien, rise_of_gated hien,
    gatedData_of_disabled hdisabled, gatedSample_of_disabled hdisabled,
    gatedData_of_disabled (s := { s with sr := { s.sr with dataLine := b } }) hdisabled,
    gatedSample_of_disabled (s := { s with sr := { s.sr with dataLine := b } }) hdisabled]

end Sys2Proof.Proofs

/-! ### The command-stream encoder: what its operations answer (R182 to R188, R194) -/

namespace Sys2Proof.Proofs
open Sys2Proof.Machine Sys2Proof.Reference

section
variable {s : State}

/-- A failed encoder selects no mode (R226). -/
theorem ceSelectMode_of_failed (hfailed : s.ce.failed = true) (m : Mode) :
    ceSelectMode m s = s.answer (.raised (.sinkWriteFailure none)) := by
  simp [ceSelectMode, hfailed]

/-- Once output has begun, a selection is rejected (R182). -/
theorem ceSelectMode_of_started (hfailed : s.ce.failed = false) (hstarted : s.ce.started = true) (m : Mode) :
    ceSelectMode m s = s.answer (.raised (.configurationOrdering m)) := by
  simp [ceSelectMode, hfailed, hstarted]

/-- Before output, a selection sets the mode (R182). -/
theorem ceSelectMode_of_unstarted (hfailed : s.ce.failed = false) (hstarted : s.ce.started = false) (m : Mode) :
    ceSelectMode m s = (s.withCe { s.ce with mode := m } s.ceSink).answer .ok := by
  simp [ceSelectMode, hfailed, hstarted]

/-- A failed encoder raises the failure again at a directive, without writing (R194, R224). -/
theorem ceSetData_of_failed (hfailed : s.ce.failed = true) (v : Bit) :
    ceSetData v s = (s.withCe { s.ce with count := s.ce.count + 1 } s.ceSink).answer
      (.raised (.sinkWriteFailure (some s.ce.count))) := by
  simp [ceSetData, hfailed]

/-- In `data` mode a directive is absorbed (R187). -/
theorem ceSetData_absorbed (hfailed : s.ce.failed = false) (hmode : s.ce.mode = .data) (v : Bit) :
    ceSetData v s = (s.withCe { s.ce with count := s.ce.count + 1, dataValue := v } s.ceSink).answer .ok := by
  simp [ceSetData, hfailed, hmode]

/-- Outside `data` mode a directive writes its character (R187). -/
theorem ceSetData_writes (hfailed : s.ce.failed = false) (hmode : s.ce.mode ≠ .data) (v : Bit) :
    ceSetData v s = ceWrite { s.ce with count := s.ce.count + 1, dataValue := v } [dataChar s.alphabet v]
      s.ce.count s := by
  unfold ceSetData
  rw [if_neg (by simp [hfailed])]
  split
  · exact absurd ‹_› hmode
  · rfl

/-- A failed encoder raises the failure again at an instruction, without writing (R194, R224). -/
theorem ceEmit_of_failed (hfailed : s.ce.failed = true) (op : Opcode) :
    ceEmit op s = (s.withCe { s.ce with count := s.ce.count + 1 } s.ceSink).answer
      (.raised (.sinkWriteFailure (some s.ce.count))) := by
  simp [ceEmit, hfailed]

/-- An instruction writes its block and its annotation (R183). -/
theorem ceEmit_writes (hfailed : s.ce.failed = false) (op : Opcode) :
    ceEmit op s = ceWrite { s.ce with
        count := s.ce.count + 1, prev := if s.ce.mode = .off then op else s.ce.prev }
      (emission s.alphabet s.ce op) s.ce.count s := by
  simp [ceEmit, hfailed]

/-- A write that does not fit into the sink's room fills it and fails (R58, R194). -/
theorem ceWrite_of_short {room : Nat} {cs : List Char} (hroom : s.ceSink.room = some room)
    (hshort : room < cs.length) (e : CommandEncoder) (n : Nat) :
    ceWrite e cs n s = ceFail e { accepted := s.ceSink.accepted ++ cs.take room, room := some 0 } n s := by
  rw [ceWrite, Sink.putAll_bounded cs _ _ hroom, if_neg (by omega)]

/-- An instruction that does not fit into the sink's room fills it and fails (R194). -/
theorem ceEmit_of_short {room : Nat} {op : Opcode} (hfailed : s.ce.failed = false)
    (hroom : s.ceSink.room = some room) (hshort : room < (emission s.alphabet s.ce op).length) :
    ceEmit op s = ceFail { s.ce with
        count := s.ce.count + 1, prev := if s.ce.mode = .off then op else s.ce.prev }
      { accepted := s.ceSink.accepted ++ (emission s.alphabet s.ce op).take room, room := some 0 } s.ce.count s := by
  rw [ceEmit_writes hfailed, ceWrite_of_short hroom hshort]

end

/-- A sink failure is a `CommandFailure` of the call in hand (R194). -/
theorem commandFailure_ceFail (rest : List Call) (e : CommandEncoder) (k : Sink Char) (n : Nat) (s : State) :
    CommandFailure rest (some n) s (ceFail e k n (s.withCalls rest)) := ⟨rfl, rfl⟩

/-! The characters of a block, line by line. -/

/-- The model's line character is the spec's (R80, R81). -/
theorem lineChar_eq_selectLine (a : Config.Alphabet) (c : Opcode) (k : Fin 4) :
    lineChar a k (c.getLsbD k) = selectLine a c k := by
  rw [selectLine]
  match k, c.getLsbD k with
  | 0, true | 1, true | 2, true | 3, true | 0, false | 1, false | 2, false | 3, false => rfl

/-- A command string is the spec's four line characters (R80). -/
theorem commandString_eq (a : Config.Alphabet) (c : Opcode) :
    commandString a c = [selectLine a c 0, selectLine a c 1, selectLine a c 2, selectLine a c 3] := by
  rw [commandString, List.map_congr_left fun k _ => lineChar_eq_selectLine a c k]
  rfl

/-- What is chosen from a list, element by element. -/
theorem map_filter_eq_flatMap {α β : Type} (f : α → β) (p : α → Bool) (l : List α) :
    (l.filter p).map f = l.flatMap fun x => if p x then [f x] else [] := by
  induction l with
  | nil => rfl
  | cons x l ih => cases hx : p x <;> simp [hx, ih]

/-- A diff block is the spec's changed lines, one by one, and the clock pulse (R184). -/
theorem diffBlock_eq (a : Config.Alphabet) (p c : Opcode) :
    diffBlock a p c =
      let changed := fun k => if c.getLsbD k = p.getLsbD k then [] else [selectLine a c k]
      changed 0 ++ changed 1 ++ changed 2 ++ changed 3 ++ [a.clock] := by
  simp only [diffBlock, map_filter_eq_flatMap, lineChar_eq_selectLine, bne_iff_ne, ite_not, lineOrder,
    List.flatMap_cons, List.flatMap_nil, List.append_nil, ← List.append_assoc]
  rfl

/-- The model's emission is the spec's, mode by mode (R183 to R186, R188). -/
theorem emission_eq_specEmission (a : Config.Alphabet) (e : CommandEncoder) (c : Opcode) :
    emission a e c = specEmission a e c := by
  have hannotation : annotation c = [';'] ++ (recordOf a c).name ++ ['\n'] := rfl
  unfold emission block specEmission
  rw [hannotation]
  congr 1
  cases e.mode with
  | off => exact diffBlock_eq a e.prev c
  | inst => simp [commandString_eq]
  | data => simp [commandString_eq, dataChar, isHigh_iff]

end Sys2Proof.Proofs

/-! ### The command-stream encoder: settled statements (R182 to R188, R194, R224) -/

namespace Sys2Proof.Proofs
open Sys2Proof.Machine Sys2Proof.Reference

/-- Settles O46, by the three cases of `select_mode`: `ceSelectMode_of_failed`, `ceSelectMode_of_started` and
`ceSelectMode_of_unstarted` (R182, R226). -/
theorem selectModeOnlyBeforeOutput : Obligations.SelectModeOnlyBeforeOutput := by
  intro s m rest hcalls
  rw [step_ceSelectMode hcalls]
  refine ⟨fun hfailed => ⟨none, ?failed⟩, fun hfailed hstarted => ?started, fun hfailed hstarted => ?unstarted⟩
  case failed => rw [ceSelectMode_of_failed (s := s.withCalls rest) hfailed]; rfl
  case started => rw [ceSelectMode_of_started (s := s.withCalls rest) hfailed hstarted]; rfl
  case unstarted => rw [ceSelectMode_of_unstarted (s := s.withCalls rest) hfailed hstarted]; rfl

/-- Settles O47: in `data` mode the directive is absorbed (`ceSetData_absorbed`); otherwise it is one write
(`ceSetData_fits`), which fails where the sink has no room (`ceWrite_of_short`) (R187, R194). -/
theorem setDataWritesOutsideDataMode : Obligations.SetDataWritesOutsideDataMode := by
  intro s v rest hcalls hfailed
  rw [step_ceSetData hcalls]
  refine ⟨fun hmode => ?absorbed, fun hmode hroom => ?written, fun hmode hfull => ?fails⟩
  case absorbed =>
    rw [ceSetData_absorbed (s := s.withCalls rest) hfailed hmode]
    rfl
  case written =>
    rw [ceSetData_fits v (s.withCalls rest) hfailed hmode hroom]
    simp [dataChar, isHigh_iff, State.withCe, State.answer, State.withCalls]
  case fails =>
    rw [ceSetData_writes (s := s.withCalls rest) hfailed hmode,
      ceWrite_of_short (s := s.withCalls rest) hfull (by simp)]
    exact ⟨_, rfl, rfl, commandFailure_ceFail rest _ _ _ s⟩

/-- Settles O48: with room for it all, `emit` writes the model's emission (`ceEmit_fits`), which is the spec's
(`emission_eq_specEmission`) (R183 to R186, R188). -/
theorem emitWritesTheBlockOfTheMode : Obligations.EmitWritesTheBlockOfTheMode := by
  rintro s op rest _ hcalls hfailed rfl hroom
  rw [← emission_eq_specEmission] at hroom ⊢
  rw [step_ceEmit hcalls, ceEmit_fits op (s.withCalls rest) hfailed hroom]
  rfl

/-- Settles O49: `emit` is one write of the emission, which fills the room there is and fails (`ceEmit_of_short`); a
failure of CE is no other block's (`commandFailure_ceFail`) (R194). -/
theorem emitStopsAtTheFailedWrite : Obligations.EmitStopsAtTheFailedWrite := by
  intro s op rest room hcalls hfailed hroom hshort
  rw [step_ceEmit hcalls, ceEmit_of_short (s := s.withCalls rest) hfailed hroom hshort]
  exact ⟨_, rfl, rfl, rfl, commandFailure_ceFail rest _ _ _ s⟩

/-- A failed encoder's `finish` raises again, without writing (R178). -/
theorem reFinish_of_failed {s : State} (hfailed : s.re.failed = true) :
    reFinish s = s.answer (.raised (.sinkWriteFailure none)) := if_pos hfailed

/-- Settles O50, operation by operation: a failed block's operation raises again and gives its sink back as it was
(`reEmit_of_failed` and the like) (R224). -/
theorem sinkFailureIsSticky : Obligations.SinkFailureIsSticky := by
  refine ⟨?raw, ?command⟩
  case raw =>
    rintro s call rest hcalls hfailed (rfl | ⟨op, rfl⟩)
    · rw [step_reFinish hcalls, reFinish_of_failed (s := s.withCalls rest) hfailed]
      exact ⟨_, _, rfl, hfailed, rfl, rfl⟩
    · rw [step_reEmit hcalls, reEmit_of_failed (s := s.withCalls rest) hfailed]
      exact ⟨_, _, rfl, hfailed, rfl, rfl⟩
  case command =>
    rintro s call rest hcalls hfailed (⟨m, rfl⟩ | ⟨v, rfl⟩ | ⟨op, rfl⟩)
    · rw [step_ceSelectMode hcalls, ceSelectMode_of_failed (s := s.withCalls rest) hfailed]
      exact ⟨_, _, rfl, hfailed, rfl, rfl⟩
    · rw [step_ceSetData hcalls, ceSetData_of_failed (s := s.withCalls rest) hfailed]
      exact ⟨_, _, rfl, hfailed, rfl, rfl⟩
    · rw [step_ceEmit hcalls, ceEmit_of_failed (s := s.withCalls rest) hfailed]
      exact ⟨_, _, rfl, hfailed, rfl, rfl⟩

end Sys2Proof.Proofs

/-! ### The blocks of the core do not read each other (R3): settled statements -/

namespace Sys2Proof.Proofs
open Sys2Proof.Machine Sys2Proof.Reference

section
variable (s : State) (p : Psm) (h : List HistoryEvent)

/-- The state with another PSM and another history: what no encoder may read (R3). -/
def withView : State := { s with psm := p, history := h }

@[simp] theorem withView_alphabet : (withView s p h).alphabet = s.alphabet := rfl
@[simp] theorem withView_ceSink : (withView s p h).ceSink = s.ceSink := rfl

/-! Each operation of the encoders and the table gives the same in both views. -/

theorem lookupCall_withView (name : List Char) :
    lookupCall name (withView s p h) = withView (lookupCall name s) p h := by
  rw [lookupCall, lookupCall, withView_alphabet]
  cases lookup s.alphabet name <;> rfl

theorem reWrite_withView (e : RawEncoder) (b : Byte) (n : Nat) :
    reWrite e b n (withView s p h) = withView (reWrite e b n s) p h := by
  rcases Sink.put_cases s.reSink b with ⟨hfull, -⟩ | ⟨hroom, -⟩
  · rw [reWrite_of_full hfull, reWrite_of_full (s := withView s p h) hfull]
    rfl
  · rw [reWrite_of_room hroom, reWrite_of_room (s := withView s p h) hroom]
    rfl

theorem reEmit_withView (op : Opcode) : reEmit op (withView s p h) = withView (reEmit op s) p h := by
  unfold reEmit
  rw [apply_ite (withView · p h), apply_ite (withView · p h), ← reWrite_withView]
  rfl

theorem reFinish_withView : reFinish (withView s p h) = withView (reFinish s) p h := by
  unfold reFinish
  rw [apply_ite (withView · p h), apply_ite (withView · p h), ← reWrite_withView]
  rfl

theorem ceWrite_withView (e : CommandEncoder) (cs : List Char) (n : Nat) :
    ceWrite e cs n (withView s p h) = withView (ceWrite e cs n s) p h := by
  rw [ceWrite, ceWrite, withView_ceSink]
  rcases Sink.putAll cs s.ceSink with ⟨_ | _, k⟩ <;> rfl

theorem ceSelectMode_withView (m : Mode) : ceSelectMode m (withView s p h) = withView (ceSelectMode m s) p h := by
  unfold ceSelectMode
  rw [apply_ite (withView · p h), apply_ite (withView · p h)]
  rfl

theorem ceSetData_withView (v : Bit) : ceSetData v (withView s p h) = withView (ceSetData v s) p h := by
  cases hfailed : s.ce.failed with
  | true => rw [ceSetData_of_failed hfailed, ceSetData_of_failed (s := withView s p h) hfailed]; rfl
  | false =>
    by_cases hmode : s.ce.mode = .data
    · rw [ceSetData_absorbed hfailed hmode, ceSetData_absorbed (s := withView s p h) hfailed hmode]; rfl
    · rw [ceSetData_writes hfailed hmode, ceSetData_writes (s := withView s p h) hfailed hmode, ← ceWrite_withView]
      rfl

theorem ceEmit_withView (op : Opcode) : ceEmit op (withView s p h) = withView (ceEmit op s) p h := by
  unfold ceEmit
  rw [apply_ite (withView · p h), ← ceWrite_withView]
  rfl

theorem assembleRaw_withView (name : List Char) :
    assembleRaw name (withView s p h) = withView (assembleRaw name s) p h := by
  rw [assembleRaw, assembleRaw, withView_alphabet]
  cases lookup s.alphabet name with
  | ok r => exact reEmit_withView s p h r.code
  | error e => rfl

theorem assembleCommand_withView (name : List Char) :
    assembleCommand name (withView s p h) = withView (assembleCommand name s) p h := by
  rw [assembleCommand, assembleCommand, withView_alphabet]
  cases lookup s.alphabet name with
  | ok r => exact ceEmit_withView s p h r.code
  | error e => rfl

/-- No call of the driver reads or changes PSM and the history, call by call (R3). -/
theorem takeCall_withView (c : Call) :
    takeCall c (withView s p h) = ((takeCall c s).1, withView (takeCall c s).2 p h) := by
  cases c with
  | lookup name => exact congrArg (Prod.mk _) (lookupCall_withView s p h name)
  | reEmit op => exact congrArg (Prod.mk _) (reEmit_withView s p h op)
  | reFinish => exact congrArg (Prod.mk _) (reFinish_withView s p h)
  | ceSelectMode m => exact congrArg (Prod.mk _) (ceSelectMode_withView s p h m)
  | ceSetData v => exact congrArg (Prod.mk _) (ceSetData_withView s p h v)
  | ceEmit op => exact congrArg (Prod.mk _) (ceEmit_withView s p h op)
  | assembleRaw name => exact congrArg (Prod.mk _) (assembleRaw_withView s p h name)
  | assembleCommand name => exact congrArg (Prod.mk _) (assembleCommand_withView s p h name)
  | _ => rfl

end

/-- Settles O44: an instruction's effect depends on the instruction and PSM alone (`exec_is_rise_of_psm`), its operand
on the data line; the calls of the driver commute with any change of PSM and the history (`takeCall_withView`) (R3). -/
theorem blocksDoNotReadEachOther : Obligations.BlocksDoNotReadEachOther := by
  refine ⟨fun i s t s' t' hexec hexec' hpsm hline => ?_, fun c s p h => takeCall_withView s p h c⟩
  obtain ⟨effect, heffect⟩ := exec_is_rise_of_psm i s.psm
  cases (heffect s rfl).symm.trans hexec
  cases (heffect s' hpsm).symm.trans hexec'
  simp [rise_eq, dataIn, hpsm, hline]

end Sys2Proof.Proofs

/-! ### What a turn of the driver, and a step, can do (R3, R100, R113) -/

namespace Sys2Proof.Proofs
open Sys2Proof.Machine Sys2Proof.Safety Sys2Proof.Reference

/-! PSM and the alphabet. -/

/-- What a step does to PSM and the alphabet: PSM stays, or it takes the spec's rising or falling edge; the alphabet
stays (R81, R100). -/
theorem step_psm {s t : State} (hnext : step s = .next t) :
    (t.psm = s.psm ∨ t.psm = onFallingEdge s.psm ∨ ∃ lines d, t.psm = onRisingEdge s.psm lines d) ∧
      t.alphabet = s.alphabet := by
  obtain ⟨hpsm, -, halphabet⟩ := driverTurn_psm s
  rcases step_cases s with ⟨-, hstep⟩ | ⟨-, hstep⟩ | ⟨-, hstep⟩ | ⟨hended, hstep⟩ | ⟨r, -, hstep⟩ <;>
    rw [hstep] at hnext
  · -- a rising edge
    cases (exec_fetch _).symm.trans hnext
    exact ⟨.inr (.inr ⟨_, _, by rw [hpsm]⟩), halphabet⟩
  · -- a falling edge
    cases hnext
    exact ⟨.inr (.inl (by rw [fallingEdge_psm, hpsm])), halphabet⟩
  · -- a turn without an edge
    cases hnext
    exact ⟨.inl hpsm, halphabet⟩
  · -- the end of the run
    cases eq_of_endOfRun_next hnext
    exact ⟨.inl hpsm, halphabet⟩
  · -- a refused character
    cases hnext

/-! The command-stream encoder. -/

/-- The characters that one operation of CE hands to its sink (R183, R187). -/
def CeOutput (s : State) (cs : List Char) : Prop :=
  (∃ v, cs = [dataChar s.alphabet v]) ∨ ∃ op, cs = emission s.alphabet s.ce op

/-- What a turn can do to CE: nothing that shows, one operation's output written whole, or a failure; the last two have
started it (R183, R187, R194). -/
inductive CeTurn (s t : State) : Prop
  | kept (hsink : t.ceSink = s.ceSink) (hstarted : t.ce.started = s.ce.started) (hfailed : t.ce.failed = s.ce.failed)
  | wrote (cs : List Char) (houtput : CeOutput s cs) (hstarted : t.ce.started = true)
      (haccepted : t.ceSink.accepted = s.ceSink.accepted ++ cs)
  | failed (hstarted : t.ce.started = true) (hfailed : t.ce.failed = true)

/-- A turn that gives CE and its sink back as they were. -/
theorem CeTurn.of_eq {s t : State} (hce : t.ce = s.ce) (hsink : t.ceSink = s.ceSink) : CeTurn s t :=
  .kept hsink (by rw [hce]) (by rw [hce])

theorem ceSetData_turn (v : Bit) (s : State) : CeTurn s (ceSetData v s) := by
  rcases (ceSetData_spec v s).2 with ⟨hsink, hstarted, hfailed⟩ | ⟨hstarted, haccepted | hfailed⟩
  · exact .kept hsink hstarted hfailed
  · exact .wrote _ (.inl ⟨v, rfl⟩) hstarted haccepted
  · exact .failed hstarted hfailed

theorem ceEmit_turn (op : Opcode) (s : State) : CeTurn s (ceEmit op s) := by
  rcases (ceEmit_spec op s).2 with ⟨hsink, hstarted, hfailed⟩ | ⟨hstarted, haccepted | hfailed⟩
  · exact .kept hsink hstarted hfailed
  · exact .wrote _ (.inr ⟨op, rfl⟩) hstarted haccepted
  · exact .failed hstarted hfailed

/-- What each call of the driver does to CE. -/
theorem takeCall_ceTurn (c : Call) (s : State) : CeTurn s (takeCall c s).2 := by
  cases c with
  | lookup name => rw [takeCall, lookupCall_frame]; exact .of_eq rfl rfl
  | reEmit op => exact .of_eq (reEmit_frame op s).2.1 (reEmit_frame op s).2.2
  | reFinish => exact .of_eq (reFinish_frame s).2.1 (reFinish_frame s).2.2
  | ceSelectMode m =>
    obtain ⟨-, hsink, hstarted, hfailed⟩ := ceSelectMode_frame m s
    exact .kept hsink hstarted hfailed
  | ceSetData v => exact ceSetData_turn v s
  | ceEmit op => exact ceEmit_turn op s
  | assembleRaw name =>
    rw [takeCall, assembleRaw]
    split
    · exact .of_eq (reEmit_frame _ s).2.1 (reEmit_frame _ s).2.2
    · exact .of_eq rfl rfl
  | assembleCommand name =>
    rw [takeCall, assembleCommand]
    split
    · exact ceEmit_turn _ s
    · exact .of_eq rfl rfl
  | _ => exact .of_eq rfl rfl

/-- Reading a character changes the reader and the driver's levels only (R200). -/
theorem readChar_eq_withSr (c : Char) (rest : List Char) (s : State) : ∃ r, (readChar c rest s).2 = s.withSr r := by
  unfold readChar
  split
  · exact ⟨_, rfl⟩
  split
  · exact ⟨_, rfl⟩
  split
  · rename_i k _
    cases k <;> exact ⟨_, rfl⟩
  · exact ⟨s.sr, rfl⟩

/-- The reader's turn changes the reader and the driver's levels only (R200). -/
theorem readerTurn_eq_withSr (s : State) : ∃ r, (readerTurn s).2 = s.withSr r := by
  unfold readerTurn
  split
  · exact ⟨_, rfl⟩
  split
  · exact ⟨s.sr, rfl⟩
  split
  · exact ⟨s.sr, rfl⟩
  · exact readChar_eq_withSr _ _ s

theorem driverTurn_ceTurn (s : State) : CeTurn s (driverTurn s).2 := by
  cases hcalls : s.calls with
  | nil =>
    obtain ⟨r, hreader⟩ := readerTurn_eq_withSr s
    rw [driverTurn_reader hcalls, hreader]
    exact .of_eq rfl rfl
  | cons c rest =>
    rw [driverTurn_call hcalls]
    -- the call is taken off the list, which CE does not hold
    rcases takeCall_ceTurn c (s.withCalls rest) with ⟨hsink, hstarted, hfailed⟩ | ⟨cs, houtput, hstarted, haccepted⟩ |
      ⟨hstarted, hfailed⟩
    · exact .kept hsink hstarted hfailed
    · exact .wrote cs houtput hstarted haccepted
    · exact .failed hstarted hfailed

/-- What a step does to CE: what the driver's turn did (R3). -/
theorem step_ceTurn {s t : State} (hnext : step s = .next t) : CeTurn s t := by
  rcases step_next_cases hnext with ⟨-, hce, hsink, -⟩ | ⟨-, -, -, rfl⟩
  · rcases driverTurn_ceTurn s with ⟨hsink', hstarted, hfailed⟩ | ⟨cs, houtput, hstarted, haccepted⟩ |
      ⟨hstarted, hfailed⟩
    · exact .kept (hsink.trans hsink') (by rw [hce, hstarted]) (by rw [hce, hfailed])
    · exact .wrote cs houtput (by rw [hce, hstarted]) (by rw [hsink, haccepted])
    · exact .failed (by rw [hce, hstarted]) (by rw [hce, hfailed])
  · exact .of_eq rfl rfl

end Sys2Proof.Proofs

/-! ### The invariant of PSM (R28, R32, R33, R113) -/

namespace Sys2Proof.Proofs
open Sys2Proof.Machine Sys2Proof.Safety Sys2Proof.Reference

/-- A rising edge establishes PSM's invariant, whatever PSM was (R32, R113). -/
theorem psmOk_onRisingEdge (p : Psm) (lines : Opcode) (d : Bit) : PsmOk (onRisingEdge p lines d) := by
  unfold onRisingEdge
  constructor <;> simp only [decide_eq_true_eq]
  case flag0 => exact id
  case flagF => exact And.left
  case jump => exact id
  case ret => exact fun hop => ⟨hop, .inl hop⟩
  case write =>
    rintro ⟨hop | hop, henabled⟩
    · simp [hop, henabled]
    · simp [hop, henabled, not_eq_ofNat]
  case skip =>
    rintro (hop | ⟨hop, hzero⟩)
    · exact .inl hop
    · simp [hop, hzero]

/-- A falling edge keeps PSM's invariant: it lowers pulses and keeps `skip` with what it follows from (R110). -/
theorem psmOk_onFallingEdge {p : Psm} (hok : PsmOk p) : PsmOk (onFallingEdge p) where
  flag0 := nofun
  flagF := nofun
  jump := nofun
  ret := nofun
  write := nofun
  skip := hok.skip

/-- A pulse that belongs to certain opcodes counts for no other. -/
theorem toNat_le_of_imp {b : Bool} {P : Prop} [Decidable P] (himp : b = true → P) : b.toNat ≤ (decide P).toNat := by
  cases b with
  | false => exact Nat.zero_le _
  | true => simp [himp rfl]

/-- Each pulse belongs to opcodes of its own, so no opcode has two (R32, R33). -/
theorem pulseCount_le_one {p : Psm} (hok : PsmOk p) : pulseCount p ≤ 1 := by
  have hdisjoint : ∀ c : Opcode, (decide (c = 0#4)).toNat + (decide (c = 15#4)).toNat + (decide (c = 12#4)).toNat +
      (decide (c = 13#4)).toNat + (decide (c = 8#4 ∨ c = 9#4)).toNat ≤ 1 := by decide
  have hflag0 := toNat_le_of_imp hok.flag0
  have hflagF := toNat_le_of_imp hok.flagF
  have hjump := toNat_le_of_imp hok.jump
  have hret := toNat_le_of_imp fun h => (hok.ret h).1
  have hwrite := toNat_le_of_imp fun h => (hok.write h).2.imp And.left And.left
  have hsum := hdisjoint p.instructionRegister
  unfold pulseCount
  omega

end Sys2Proof.Proofs

/-! ### The invariant of the machine: settled statements (R113) -/

namespace Sys2Proof.Proofs
open Sys2Proof.Machine Sys2Proof.Safety Sys2Proof.Reference

/-- Settles O12: nothing is high, pending, started or failed at reset, and the default alphabet keeps its constraint
(R240). -/
theorem resetIsConsistent : Obligations.ResetIsConsistent where
  psm := ⟨nofun, nofun, nofun, nofun, nofun, nofun⟩
  failed_started := nofun
  unstarted_empty := fun _ => rfl
  alphabet := default_alphabet_wellFormed

/-- Settles O13: PSM stays or takes an edge (`step_psm`), and both edges end in its invariant (`psmOk_onRisingEdge`,
`psmOk_onFallingEdge`); CE stays, or what it does has started it (`step_ceTurn`) (R32, R42, R113, R183). -/
theorem stepKeepsConsistent : Obligations.StepKeepsConsistent := by
  intro s t ⟨hpsm, hfailed_started, hunstarted_empty, hwf⟩ hnext
  obtain ⟨hedge, halphabet⟩ := step_psm hnext
  have hce := step_ceTurn hnext
  constructor
  case psm =>
    rcases hedge with h | h | ⟨lines, d, h⟩ <;> rw [h]
    · exact hpsm
    · exact psmOk_onFallingEdge hpsm
    · exact psmOk_onRisingEdge _ _ _
  case failed_started =>
    rcases hce with ⟨-, hstarted, hfailed⟩ | ⟨_, -, hstarted, -⟩ | ⟨hstarted, -⟩
    · rw [hstarted, hfailed]
      exact hfailed_started
    · exact fun _ => hstarted
    · exact fun _ => hstarted
  case unstarted_empty =>
    rcases hce with ⟨hsink, hstarted, -⟩ | ⟨_, -, hstarted, -⟩ | ⟨hstarted, -⟩
    · rw [hstarted, hsink]
      exact hunstarted_empty
    · simp [hstarted]
    · simp [hstarted]
  case alphabet => rwa [halphabet]

/-- Settles O14: a run keeps the invariant (`run_keeps`, `stepKeepsConsistent`), under which no two pulses are high
(`pulseCount_le_one`); a falling edge leaves none (R33, R113 (d)). -/
theorem atMostOnePulse : Obligations.AtMostOnePulse := by
  refine ⟨fun s t n hok hrun => ?most, fun s hfalling => ?none⟩
  case most => exact pulseCount_le_one (run_keeps stepKeepsConsistent n hok hrun).psm
  case none =>
    refine ⟨fallingEdge (driverTurn s).2, ?_, rfl⟩
    rcases step_cases s with ⟨hturn, -⟩ | ⟨-, hstep⟩ | ⟨hturn, -⟩ | ⟨hturn, -⟩ | ⟨r, hturn, -⟩
    case inr.inl => exact hstep
    all_goals simp [hfalling] at hturn

end Sys2Proof.Proofs

/-! ### The end of a run, and where a step stops (R206 to R208, R224) -/

namespace Sys2Proof.Proofs
open Sys2Proof.Machine Sys2Proof.Safety Sys2Proof.Reference

/-- At the end of a run a step judges it (R208, R224). -/
theorem step_of_atEnd {s : State} (hend : AtEnd s) : step s = endOfRun s := by
  obtain ⟨hcalls, hpulse, hread⟩ := hend
  have hturn : driverTurn s = (.ended, s) := by
    rw [driverTurn_reader hcalls, readerTurn, if_neg (by simp [hpulse])]
    rcases hread with hstopped | hinput
    · rw [if_pos hstopped]
    · simp [hinput]
  rw [step, hturn]

/-- A turn that ends the run was at the end of the run (R208). -/
theorem atEnd_of_ended {s : State} (hended : (driverTurn s).1 = .ended) : AtEnd s ∧ (driverTurn s).2 = s := by
  obtain ⟨hcalls, hpulse, hread, hsame⟩ := driverTurn_ended hended
  exact ⟨⟨hcalls, hpulse, hread⟩, hsame⟩

/-- A character is refused exactly as one that is no command, comment or white space, with its position (R207). -/
theorem readChar_refuse {c : Char} {rest : List Char} {s : State} {r : Refusal}
    (hrefuse : (readChar c rest s).1 = .refuse r) :
    commandOf s.alphabet c = none ∧ c ∉ reservedChars ∧ r = .unknownCommandCharacter s.sr.position c := by
  unfold readChar at hrefuse
  split at hrefuse
  · cases hrefuse
  rename_i hmark
  split at hrefuse
  · cases hrefuse
  rename_i hspace
  split at hrefuse
  · rename_i k _
    cases k <;> cases hrefuse
  · rename_i hnone
    cases hrefuse
    exact ⟨hnone, by simpa [reservedChars, hmark] using hspace, rfl⟩

/-- Only the reader refuses, and only at its next character (R207). -/
theorem driverTurn_refuse {s : State} {r : Refusal} (hrefuse : (driverTurn s).1 = .refuse r) :
    ∃ c rest, s.calls = [] ∧ s.sr.input = c :: rest ∧ commandOf s.alphabet c = none ∧ c ∉ reservedChars ∧
      r = .unknownCommandCharacter s.sr.position c := by
  cases hcalls : s.calls with
  | cons c rest =>
    rw [driverTurn_call hcalls] at hrefuse
    cases c <;> cases hrefuse
  | nil =>
    rw [driverTurn_reader hcalls] at hrefuse
    unfold readerTurn at hrefuse
    split at hrefuse
    · cases hrefuse
    split at hrefuse
    · cases hrefuse
    split at hrefuse
    · cases hrefuse
    · rename_i c rest hinput
      exact ⟨c, rest, rfl, hinput, readChar_refuse hrefuse⟩

/-- Settles O24: an instruction is a rising edge (`exec_is_rise`), so of what a step can be (`step_cases`) only a
refused character (`driverTurn_refuse`) and the end of a failed run (`endOfRun_cases`) answer no next state (R114, R207,
R224). -/
theorem instructionsNeverStop : Obligations.InstructionsNeverStop := by
  have hexec : ∀ i s, ∃ t, exec i s = .next t := fun i s =>
    let ⟨_, h⟩ := exec_is_rise i s
    ⟨_, h⟩
  refine ⟨hexec, fun s => ?_⟩
  rcases step_cases s with ⟨-, hstep⟩ | ⟨-, hstep⟩ | ⟨-, hstep⟩ | ⟨hturn, hstep⟩ | ⟨r, hturn, hstep⟩ <;> rw [hstep]
  · -- a rising edge
    exact .inl (hexec _ _)
  · -- a falling edge
    exact .inl ⟨_, rfl⟩
  · -- a turn without an edge
    exact .inl ⟨_, rfl⟩
  · -- the end of the run
    obtain ⟨hend, hsame⟩ := atEnd_of_ended hturn
    rw [hsame]
    rcases endOfRun_cases s with ⟨hfailed, hfault⟩ | ⟨-, -, hheld⟩
    · exact .inr (.inr ⟨hend, hfailed, _, hfault⟩)
    · exact .inl ⟨s, hheld⟩
  · -- a refused character
    obtain ⟨c, rest, hcalls, hinput, hnone, hreserved, rfl⟩ := driverTurn_refuse hturn
    exact .inr (.inl ⟨c, rest, hcalls, hinput, hnone, hreserved, rfl⟩)

/-- Settles O23: the step at the end judges the run (`step_of_atEnd`), and with nothing failed the judgement is the
state (R208, R236). -/
theorem idleHoldsTheState : Obligations.IdleHoldsTheState := by
  intro s hend hre hce
  simp [step_of_atEnd hend, endOfRun, hre, hce]

/-- At the end of a run with a failed encoder the step is a fault (R224). -/
theorem step_fault_of_atEnd {s : State} (hend : AtEnd s) (hfailed : s.re.failed = true ∨ s.ce.failed = true) :
    ∃ b, step s = .fault (.sinkWriteFailure b) := by
  rw [step_of_atEnd hend]
  rcases endOfRun_cases s with ⟨-, hfault⟩ | ⟨hre, hce, -⟩
  · exact ⟨_, hfault⟩
  · simp [hre, hce] at hfailed

end Sys2Proof.Proofs

/-! ### A failed run: settled statement (R224) -/

namespace Sys2Proof.Proofs
open Sys2Proof.Machine Sys2Proof.Safety Sys2Proof.Reference

/-- No step clears a failure (R224). -/
theorem step_keeps_failed {s t : State} (hnext : step s = .next t) :
    (s.re.failed = true → t.re.failed = true) ∧ (s.ce.failed = true → t.ce.failed = true) := by
  rcases step_next_cases hnext with ⟨hre, hce, -⟩ | ⟨-, -, -, rfl⟩
  · rw [hre, hce]
    exact driverTurn_failed s
  · exact ⟨id, id⟩

/-- No run clears a failure (R224). -/
theorem run_keeps_failed {s t : State} {n : Nat} (hrun : Sys2Proof.core.run n s = .next t) :
    (s.re.failed = true → t.re.failed = true) ∧ (s.ce.failed = true → t.ce.failed = true) :=
  ⟨fun hre => run_keeps (P := (·.re.failed = true)) (fun _ _ hu hstep => (step_keeps_failed hstep).1 hu) n hre hrun,
   fun hce => run_keeps (P := (·.ce.failed = true)) (fun _ _ hu hstep => (step_keeps_failed hstep).2 hu) n hce hrun⟩

theorem faulted_iff (s : State) : faulted s = true ↔ s.re.failed = true ∨ s.ce.failed = true := by simp [faulted]

/-- A step of a failed run that answers a state leaves it failed and less to do: such a run has no idle step
(R224; log entry 8). -/
theorem step_of_faulted {s t : State} (hfaulted : faulted s = true) (hnext : step s = .next t) :
    faulted t = true ∧ workLeft t < workLeft s := by
  rw [faulted_iff] at hfaulted ⊢
  have hkeeps := step_keeps_failed hnext
  refine ⟨hfaulted.imp hkeeps.1 hkeeps.2, ?_⟩
  rcases step_next_cases hnext with ⟨-, -, -, hsr, hcalls, hturn⟩ | ⟨-, hre, hce, -⟩
  · have hwork : workLeft t = workLeft (driverTurn s).2 := by simp [workLeft, hsr, hcalls]
    rcases driverTurn_progress s with hended | ⟨r, hrefuse⟩ | hless
    · exact absurd hended hturn
    · rcases step_cases s with ⟨h, -⟩ | ⟨h, -⟩ | ⟨h, -⟩ | ⟨h, -⟩ | ⟨_, -, h⟩
      case inr.inr.inr.inr => simp [h] at hnext
      all_goals simp [hrefuse] at h
    · omega
  · simp [hre, hce] at hfaulted

/-- A failed run comes to its fault or to the refusal of its stream, by induction on the work left (R224). -/
theorem faulted_run_ends (s : State) (hfaulted : faulted s = true) :
    ∃ n, (∃ b, Sys2Proof.core.run n s = .fault (.sinkWriteFailure b)) ∨
      ∃ k c, Sys2Proof.core.run n s = .refused (.unknownCommandCharacter k c) := by
  rcases instructionsNeverStop.2 s with ⟨t, hstep⟩ | ⟨c, _, -, -, -, -, hstep⟩ | ⟨-, -, b, hstep⟩
  · obtain ⟨ht, hless⟩ := step_of_faulted hfaulted hstep
    obtain ⟨n, hends⟩ := faulted_run_ends t ht
    exact ⟨n + 1, by rwa [run_succ n hstep]⟩
  · exact ⟨1, .inr ⟨_, c, run_refused 0 hstep⟩⟩
  · exact ⟨1, .inl ⟨b, run_fault 0 hstep⟩⟩
termination_by workLeft s

/-- A run that is judged well has not failed (R224). -/
theorem judgedRun_next {s t : State} {n : Nat} (hjudged : judgedRun n s = .next t) :
    Sys2Proof.core.run n s = .next t ∧ t.re.failed = false ∧ t.ce.failed = false := by
  unfold judgedRun at hjudged
  split at hjudged
  · rename_i u hrun
    rcases endOfRun_cases u with ⟨-, hfault⟩ | ⟨hre, hce, hheld⟩
    · cases hfault.symm.trans hjudged
    · cases hheld.symm.trans hjudged
      exact ⟨hrun, hre, hce⟩
  · cases hjudged
  · cases hjudged

/-- Settles O59: a run keeps every failure (`run_keeps_failed`), its end is the fault (`step_of_atEnd`), it comes to
that end or to a refusal (`faulted_run_ends`), and a judged run that ends well has none (`judgedRun_next`) (R224). -/
theorem failedRunIsNeverASuccess : Obligations.FailedRunIsNeverASuccess := by
  refine ⟨fun s t n hrun => run_keeps_failed hrun, fun s hend hre => ?raw, fun s hend hre hce => ?command,
    faulted_run_ends, fun s t n hjudged => ?judged⟩
  case raw => simp [step_of_atEnd hend, endOfRun, hre]
  case command => simp [step_of_atEnd hend, endOfRun, hre, hce]
  case judged =>
    obtain ⟨hrun, hre, hce⟩ := judgedRun_next hjudged
    have hkeeps := run_keeps_failed hrun
    simp only [hre, hce, Bool.false_eq_true, imp_false, Bool.not_eq_true] at hkeeps
    simp [faulted, hre, hce, hkeeps]

end Sys2Proof.Proofs

/-! ### The stream reader: settled statements (R202, R203, R205 to R208) -/

namespace Sys2Proof.Proofs
open Sys2Proof.Machine Sys2Proof.Safety Sys2Proof.Reference

section
variable {s : State} (hcalls : s.calls = []) (hpulse : s.sr.pulseHigh = false) (hstopped : s.sr.stopped = false)
include hcalls hpulse hstopped

/-- A comment is discarded in one step (R202; log entry 16). -/
theorem step_comment {rest : List Char} (hinput : s.sr.input = Config.commentMark :: rest) :
    step s = .next (s.withSr (s.sr.advance (dropComment rest))) := by
  rw [step, step_readChar hcalls hpulse hstopped hinput, readChar, if_pos rfl]

/-- A carriage return and each white space is discarded alone (R202, R203). -/
theorem step_space {c : Char} {rest : List Char} (hspace : c = Config.carriageReturn ∨ c ∈ Config.whitespace)
    (hinput : s.sr.input = c :: rest) :
    step s = .next { s with sr := { s.sr with input := rest, position := s.sr.position + 1 } } := by
  have hmark : c ≠ Config.commentMark := by
    rintro rfl
    revert hspace
    decide
  rw [step, step_readChar hcalls hpulse hstopped hinput, readChar, if_neg hmark, if_pos hspace,
    Reader.advance_one hinput]
  rfl

/-- The clock character is a rising edge with the levels as they stand, and its falling edge is due (R205). -/
theorem step_clock (hwf : s.alphabet.WellFormed) {rest : List Char} (hinput : s.sr.input = s.alphabet.clock :: rest) :
    step s = .next { s with
      psm := onRisingEdge s.psm s.sr.lines s.sr.dataLine
      history := s.history ++ edgeEvents s.psm s.sr.lines s.sr.dataLine
      sr := { s.sr with input := rest, position := s.sr.position + 1, pulseHigh := true } } := by
  have hmem : s.alphabet.clock ∈ s.alphabet.chars := by simp [Config.Alphabet.chars]
  rw [step, driverTurn_command hwf hcalls hpulse hstopped hmem (commandOf_clock hwf) hinput]
  exact exec_fetch _

/-- The quit character stops the reader (R206). -/
theorem step_quit (hwf : s.alphabet.WellFormed) {rest : List Char} (hinput : s.sr.input = s.alphabet.quit :: rest) :
    step s = .next { s with sr := { s.sr with input := rest, position := s.sr.position + 1, stopped := true } } := by
  have hmem : s.alphabet.quit ∈ s.alphabet.chars := by simp [Config.Alphabet.chars]
  rw [step, driverTurn_command hwf hcalls hpulse hstopped hmem (commandOf_quit hwf) hinput]
  rfl

end

/-- The falling edge of a clock pulse under way is the reader's turn, stopped or not (R205; log entry 7). -/
theorem step_of_pulseHigh {s : State} (hcalls : s.calls = []) (hpulse : s.sr.pulseHigh = true) :
    step s = .next { s with psm := onFallingEdge s.psm, sr := { s.sr with pulseHigh := false } } := by
  rw [step, driverTurn_reader hcalls, readerTurn, if_pos hpulse]
  rfl

/-- A state that a step holds is held by every run. -/
theorem run_of_held {s : State} (hheld : step s = .next s) (k : Nat) : Sys2Proof.core.run k s = .next s := by
  induction k with
  | zero => rfl
  | succ k ih => rw [run_succ k hheld, ih]

/-- Settles O55: a comment is dropped to its line feed or to the end of the input (`step_comment`, `dropComment_append`,
`dropComment_end`), the other characters alone (`step_space`) (R202, R203). -/
theorem commentsAndWhitespaceAreDiscarded : Obligations.CommentsAndWhitespaceAreDiscarded := by
  intro s rest hcalls hpulse hstopped
  refine ⟨fun text htext hinput => ?lineFeed, fun hrest hinput => ?toTheEnd, fun c hc hinput => ?alone⟩
  case lineFeed =>
    have hread : s.sr.input.length - rest.length = text.length + 2 := by simp [hinput]; omega
    rw [step_comment hcalls hpulse hstopped (rest := text ++ '\n' :: rest) hinput, dropComment_append text rest htext,
      Reader.advance, hread]
    rfl
  case toTheEnd =>
    have hread : s.sr.input.length - ([] : List Char).length = rest.length + 1 := by simp [hinput]
    rw [step_comment hcalls hpulse hstopped hinput, dropComment_end rest hrest, Reader.advance, hread]
    rfl
  case alone => exact step_space hcalls hpulse hstopped (List.mem_cons.mp hc) hinput

/-- Settles O57: no comment, white space or command (`commandOf_none`) is left for the character (R207). -/
theorem unknownCharacterIsRefused : Obligations.UnknownCharacterIsRefused := by
  intro s c rest hcalls hpulse hstopped hinput halphabet hreserved
  have hmark : c ≠ Config.commentMark := fun h => hreserved (by simp [h, Config.commentMark])
  have hspace : ¬ (c = Config.carriageReturn ∨ c ∈ Config.whitespace) := by
    rintro (h | h)
    · exact hreserved (by simp [h, Config.carriageReturn])
    · simp only [Config.whitespace, List.mem_cons, List.not_mem_nil, or_false] at h
      rcases h with rfl | rfl | rfl <;> simp at hreserved
  rw [step, step_readChar hcalls hpulse hstopped hinput, readChar, if_neg hmark, if_neg hspace,
    commandOf_none halphabet]

/-- Settles O17: the clock character is the rising edge of the lines as they stand (`step_clock`) and leaves a falling
edge due, the reader's next turn (`step_of_pulseHigh`) (R205). -/
theorem clockPulseIsOneCycle : Obligations.ClockPulseIsOneCycle := by
  intro s rest hwf hcalls hpulse hstopped hinput
  exact ⟨_, s.sr.position + 1, step_clock hcalls hpulse hstopped hwf hinput, rfl, step_of_pulseHigh hcalls rfl⟩

/-- Settles O56: the quit character stops the reader (`step_quit`), which is the end of the run; there a step holds the
state (`idleHoldsTheState`) or is the fault (`step_fault_of_atEnd`) (R206, R208). -/
theorem quitStopsTheReader : Obligations.QuitStopsTheReader := by
  intro s rest hwf hcalls hpulse hstopped hinput
  let t : State := { s with sr := { s.sr with input := rest, position := s.sr.position + 1, stopped := true } }
  have hend : AtEnd t := ⟨hcalls, hpulse, .inl rfl⟩
  exact ⟨t, _, step_quit hcalls hpulse hstopped hwf hinput, rfl,
    fun hre hce => run_of_held (idleHoldsTheState t hend hre hce), step_fault_of_atEnd hend⟩

end Sys2Proof.Proofs

/-! ### The opcode table and the assembler path: settled statements (R3, R70, R74, R75, R80, R221) -/

namespace Sys2Proof.Proofs
open Sys2Proof.Machine Sys2Proof.Reference

/-- A name that folds to a mnemonic is looked up as that instruction's record (R74). -/
theorem lookup_of_mnemonic {name : List Char} {i : Instr} (hname : name.map foldCase = mnemonic i)
    (a : Config.Alphabet) : lookup a name = .ok (recordOf a (encode i)) := by
  rw [lookup, findMnemonic_some hname]

/-- Any other name is unknown (R74). -/
theorem lookup_of_unknown {name : List Char} (hname : ∀ i, name.map foldCase ≠ mnemonic i) (a : Config.Alphabet) :
    lookup a name = .error (.unknownMnemonic name) := by
  rw [lookup, findMnemonic_none hname]

/-- Settles O1: the table's two sides are computed, code by code (R70, R75, R80). -/
theorem opcodeTableRows : Obligations.OpcodeTableRows := rfl

/-- Settles O3: the folding is a test of the character's range, and what the folded name is looked up as is
`lookup_of_mnemonic` and `lookup_of_unknown` (R74). -/
theorem lookupFoldsCaseAndComparesWhole : Obligations.LookupFoldsCaseAndComparesWhole := by
  refine ⟨by decide, fun c hc => ?outside,
    fun a name => ⟨fun i hname => ?known, fun hname => lookup_of_unknown hname a⟩⟩
  case outside => exact if_neg (by omega)
  case known => rw [lookup_of_mnemonic hname, recordOf, decode_encode, hname]

/-- Settles O4: all three calls look the name up first (`lookup_of_unknown`) and answer its error (R221). -/
theorem unknownMnemonicChangesNoBlock : Obligations.UnknownMnemonicChangesNoBlock := by
  intro s name rest call hname hcall hcalls
  have hlookup := lookup_of_unknown hname s.alphabet
  simp only [List.mem_cons, List.not_mem_nil, or_false] at hcall
  rw [step, driverTurn_call hcalls]
  rcases hcall with rfl | rfl | rfl
  · simp [takeCall, lookupCall, hlookup, State.answer, State.withCalls]
  · simp [takeCall, assembleRaw, hlookup, State.answer, State.withCalls]
  · simp [takeCall, assembleCommand, hlookup, State.answer, State.withCalls]

/-- Settles O5: the lookup answers the record of the instruction (`lookup_of_mnemonic`), and its code is what the
encoder is given (R3, R74). -/
theorem knownMnemonicIsEmitted : Obligations.KnownMnemonicIsEmitted := by
  intro s name i rest hname
  have hlookup := lookup_of_mnemonic hname s.alphabet
  refine ⟨fun hcalls => ?lookup, fun hcalls => ?raw, fun hcalls => ?command⟩
  case lookup => simp [step, driverTurn_call hcalls, takeCall, lookupCall, hlookup, State.answer, State.withCalls]
  case raw =>
    rw [step_reEmit (s := { s with calls := .reEmit (encode i) :: rest }) rfl]
    simp [step, driverTurn_call hcalls, takeCall, assembleRaw, hlookup, recordOf, State.withCalls]
  case command =>
    rw [step_ceEmit (s := { s with calls := .ceEmit (encode i) :: rest }) rfl]
    simp [step, driverTurn_call hcalls, takeCall, assembleCommand, hlookup, recordOf, State.withCalls]

end Sys2Proof.Proofs

/-! ### The raw encoder and power-on: settled statements (R172, R174, R178, R240) -/

namespace Sys2Proof.Proofs
open Sys2Proof.Machine Sys2Proof.Safety Sys2Proof.Reference

/-- Settles O7, by the branches of `emit`: `reEmit_of_failed`, `reEmit_first`, and `reEmit_second` with and without room
for its byte (R178, R222). -/
theorem rawFailureNamesTheOpcode : Obligations.RawFailureNamesTheOpcode := by
  intro s op rest hcalls
  refine ⟨_, step_reEmit hcalls, ?_⟩
  cases hfailed : s.re.failed with
  | true =>
    rw [reEmit_of_failed (s := s.withCalls rest) hfailed]
    exact ⟨rfl, fun _ => ⟨hfailed, rfl⟩⟩
  | false =>
    cases hpending : s.re.pending with
    | false =>
      rw [reEmit_first (s := s.withCalls rest) hfailed hpending]
      exact ⟨rfl, by simp⟩
    | true =>
      rw [reEmit_second (s := s.withCalls rest) hfailed hpending]
      by_cases hfull : s.reSink.room = some 0
      · rw [reWrite_of_full (s := s.withCalls rest) hfull]
        exact ⟨rfl, fun _ => ⟨rfl, rfl⟩⟩
      · rw [reWrite_of_room (s := s.withCalls rest) hfull]
        exact ⟨rfl, by simp [hfull]⟩

/-- Settles O8, by the branches of `finish`: `reFinish_of_idle`, `reFinish_of_pending` with and without room for its
byte, and `reFinish_of_failed` (R172, R178). -/
theorem rawFinishPadsWithNop0 : Obligations.RawFinishPadsWithNop0 := by
  intro s rest hcalls
  rw [step_reFinish hcalls]
  refine ⟨fun hfailed hpending => ?idle, fun hfailed hpending hroom => ?padded, fun hfailed hpending hfull => ?fails,
    fun hfailed => ?failed⟩
  case idle =>
    rw [reFinish_of_idle (s := s.withCalls rest) hfailed hpending]
    rfl
  case padded =>
    rw [reFinish_of_pending (s := s.withCalls rest) hfailed hpending, reWrite_of_room (s := s.withCalls rest) hroom]
    exact ⟨_, packByte_toNat s.re.acc 0#4, rfl⟩
  case fails =>
    rw [reFinish_of_pending (s := s.withCalls rest) hfailed hpending, reWrite_of_full (s := s.withCalls rest) hfull]
    exact ⟨_, _, rfl, rawFailure_reFail rest _ _ _ s⟩
  case failed =>
    rw [reFinish_of_failed (s := s.withCalls rest) hfailed]
    exact ⟨_, _, rfl, ⟨hfailed, rfl⟩, rfl⟩

/-- A program's raw stream has a byte for each pair, and one for an odd last opcode (R82). -/
theorem length_packBytes (ops : List Opcode) : (packBytes ops).length = (ops.length + 1) / 2 := by
  induction ops using packBytes.induct with
  | case1 => rfl
  | case2 c => simp [packBytes]
  | case3 c d rest ih =>
    simp only [packBytes, List.length_cons, ih]
    omega

/-- Byte `j` of a program's raw stream holds its opcodes `2j` and `2j + 1`, with 0 for a missing last one (R82). -/
theorem packBytes_getElem (ops : List Opcode) (j : Nat) (hj : j < (packBytes ops).length) :
    (packBytes ops)[j].toNat = (ops[2 * j]?.getD 0#4).toNat + 16 * (ops[2 * j + 1]?.getD 0#4).toNat := by
  induction ops using packBytes.induct generalizing j with
  | case1 => simp [packBytes] at hj
  | case2 c =>
    obtain rfl : j = 0 := by simpa [packBytes] using hj
    exact packByte_toNat c 0#4
  | case3 c d rest ih =>
    cases j with
    | zero => exact packByte_toNat c d
    | succ j => exact ih j (by simpa [packBytes] using hj)

/-- Settles O9: what the run writes is the program's raw stream (`run_raw_program`), of which `length_packBytes` gives
the length and `packBytes_getElem` each byte (R174). -/
theorem rawStreamHasThePairsInOrder : Obligations.RawStreamHasThePairsInOrder := by
  intro s ops hcalls hpending hfailed hroom
  obtain ⟨t, hrun, htcalls, haccepted⟩ := run_raw_program ops ⟨hpending, hfailed, hroom⟩ hcalls
  exact ⟨t, packBytes ops, hrun, htcalls, haccepted, length_packBytes ops, packBytes_getElem ops⟩

/-- Settles O11: power-on writes out every field, and reset is power-on with the default of every parameter (R240). -/
theorem powerOnValues : Obligations.PowerOnValues := by
  refine ⟨fun p => ?_, rfl⟩
  and_intros <;> rfl

end Sys2Proof.Proofs

/-! ### The encoder and the quit character: settled statement (R195) -/

namespace Sys2Proof.Proofs
open Sys2Proof.Machine Sys2Proof.Reference

section
variable {a : Config.Alphabet} (hwf : a.WellFormed)
include hwf

/-- Characters that the reader obeys differently are different (R81). -/
theorem quit_ne_of_command {c : Char} {k : Command} (hcommand : commandOf a c = some k) (hk : k ≠ .quit) :
    a.quit ≠ c := by
  rintro rfl
  rw [commandOf_quit hwf] at hcommand
  exact hk (Option.some.inj hcommand).symm

theorem quit_ne_lineChar (k : Fin 4) (high : Bool) : a.quit ≠ lineChar a k high :=
  quit_ne_of_command hwf (commandOf_lineChar hwf k high) nofun

theorem quit_ne_dataChar (v : Bit) : a.quit ≠ dataChar a v :=
  quit_ne_of_command hwf (commandOf_dataChar hwf v) nofun

theorem quit_ne_clock : a.quit ≠ a.clock :=
  quit_ne_of_command hwf (commandOf_clock hwf) nofun

/-- A block is made of line characters, a data character and the clock pulse, in every mode (R184 to R186, R195). -/
theorem quit_notMem_block (e : CommandEncoder) (op : Opcode) : a.quit ∉ block a e op := by
  have hlines : ∀ ks : List (Fin 4), a.quit ∉ ks.map fun (k : Fin 4) => lineChar a k (op.getLsbD k) := by
    intro ks hmem
    obtain ⟨k, -, hk⟩ := List.mem_map.mp hmem
    exact quit_ne_lineChar hwf k _ hk.symm
  unfold block
  cases e.mode with
  | off => exact List.not_mem_append (hlines _) (by simp [quit_ne_clock hwf])
  | inst => exact List.not_mem_append (hlines _) (by simp [quit_ne_clock hwf])
  | data => exact List.not_mem_append (hlines _) (by simp [quit_ne_dataChar hwf, quit_ne_clock hwf])

/-- Without comments, what `emit` writes is a block (R183, R195). -/
theorem quit_notMem_emission {e : CommandEncoder} (hcomments : e.comments = false) (op : Opcode) :
    a.quit ∉ emission a e op := by
  rw [emission, hcomments, if_neg Bool.false_ne_true, List.append_nil]
  exact quit_notMem_block hwf e op

end

/-- Settles O53: neither a block nor a data character holds the quit character (`quit_notMem_emission`,
`quit_ne_dataChar`), and what a step appends without a failure is such an output, or nothing (`step_ceTurn`) (R195). -/
theorem encoderNeverWritesQuit : Obligations.EncoderNeverWritesQuit := by
  refine ⟨fun a e op v hwf hcomments => ⟨quit_notMem_emission hwf hcomments op, quit_ne_dataChar hwf v⟩,
    fun s t hwf hcomments hnext hfailed => ?_⟩
  rcases step_ceTurn hnext with ⟨hsink, -, -⟩ | ⟨cs, houtput, -, haccepted⟩ | ⟨-, hfails⟩
  · exact ⟨[], by simp [hsink], List.not_mem_nil⟩
  · refine ⟨cs, haccepted, ?_⟩
    rcases houtput with ⟨v, rfl⟩ | ⟨op, rfl⟩
    · exact fun hmem => quit_ne_dataChar hwf v (List.mem_singleton.mp hmem)
    · exact quit_notMem_emission hwf hcomments op
  · simp [hfails] at hfailed

end Sys2Proof.Proofs

/-! ### The command stream of a program (R87, R183 to R187) -/

namespace Sys2Proof.Proofs
open Sys2Proof.Machine Sys2Proof.Reference

/-- What an encoder writes for an item of a program (R183, R187). -/
def itemChars (a : Config.Alphabet) (e : CommandEncoder) : Item → List Char
  | .op i => emission a e (encode i)
  | .setData v => if e.mode = .data then [] else [dataChar a v]
  | .mode _ => []

/-- The encoder after an item; a mode selection in the program changes nothing (R182 to R184, R187). -/
def afterItem (e : CommandEncoder) : Item → CommandEncoder
  | .op i => { e with count := e.count + 1, prev := if e.mode = .off then encode i else e.prev, started := true }
  | .setData v => { e with count := e.count + 1, dataValue := v, started := e.started || e.mode != .data }
  | .mode _ => e

/-- What an encoder writes for a program. -/
def commandStream (a : Config.Alphabet) : CommandEncoder → List Item → List Char
  | _, [] => []
  | e, item :: rest => itemChars a e item ++ commandStream a (afterItem e item) rest

/-- A sink after it has accepted these units (R58). -/
def sinkAfter {α : Type} (k : Sink α) (cs : List α) : Sink α :=
  { accepted := k.accepted ++ cs, room := k.room.map (· - cs.length) }

@[simp] theorem afterItem_mode (e : CommandEncoder) (item : Item) : (afterItem e item).mode = e.mode := by
  cases item <;> rfl

@[simp] theorem afterItem_comments (e : CommandEncoder) (item : Item) :
    (afterItem e item).comments = e.comments := by
  cases item <;> rfl

@[simp] theorem afterItem_failed (e : CommandEncoder) (item : Item) : (afterItem e item).failed = e.failed := by
  cases item <;> rfl

/-- Output that has begun stays begun (R42). -/
theorem afterItem_started {e : CommandEncoder} (hstarted : e.started = true) (item : Item) :
    (afterItem e item).started = true := by
  cases item <;> simp [afterItem, hstarted]

theorem sinkAfter_nil {α : Type} (k : Sink α) : sinkAfter k [] = k := by
  obtain ⟨accepted, _ | n⟩ := k <;> simp [sinkAfter]

theorem sinkAfter_append {α : Type} (k : Sink α) (cs ds : List α) :
    sinkAfter (sinkAfter k cs) ds = sinkAfter k (cs ++ ds) := by
  obtain ⟨accepted, _ | n⟩ := k <;> simp [sinkAfter, Nat.sub_sub]

/-- An item given to an encoder that has not failed, into a sink with room for it: its characters are accepted. A mode
selection among the items must name the mode in force or come after output has begun (R182, R183, R187). -/
theorem step_item {s : State} {item : Item} {rest : List Call} (hcalls : s.calls = commandCalls item ++ rest)
    (hfailed : s.ce.failed = false) (hmode : ∀ m, item = .mode m → m = s.ce.mode ∨ s.ce.started = true)
    (hroom : ∀ n, s.ceSink.room = some n → (itemChars s.alphabet s.ce item).length ≤ n) :
    ∃ t, step s = .next t ∧ t.calls = rest ∧ t.alphabet = s.alphabet ∧ t.ce = afterItem s.ce item ∧
      t.ceSink = sinkAfter s.ceSink (itemChars s.alphabet s.ce item) := by
  cases item with
  | op i =>
    refine ⟨_, step_ceEmit (rest := rest) hcalls, ?_⟩
    rw [ceEmit_fits (encode i) (s.withCalls rest) hfailed hroom]
    exact ⟨rfl, rfl, rfl, rfl⟩
  | setData v =>
    refine ⟨_, step_ceSetData (rest := rest) hcalls, ?_⟩
    by_cases hdata : s.ce.mode = .data
    · rw [ceSetData_absorbed (s := s.withCalls rest) hfailed hdata]
      exact ⟨rfl, rfl, by simp [afterItem, hdata], by simp [itemChars, hdata, sinkAfter_nil]⟩
    · have hfull : s.ceSink.room ≠ some 0 := fun h => by simpa [itemChars, hdata] using hroom 0 h
      rw [ceSetData_fits v (s.withCalls rest) hfailed hdata hfull]
      exact ⟨rfl, rfl, by simp [afterItem, hdata], by simp [itemChars, hdata, sinkAfter]⟩
  | mode m =>
    refine ⟨_, step_ceSelectMode (rest := rest) hcalls, ?_⟩
    cases hstarted : s.ce.started with
    | true =>
      rw [ceSelectMode_of_started (s := s.withCalls rest) hfailed hstarted]
      exact ⟨rfl, rfl, rfl, (sinkAfter_nil _).symm⟩
    | false =>
      obtain rfl : m = s.ce.mode := by simpa [hstarted] using hmode m rfl
      rw [ceSelectMode_of_unstarted (s := s.withCalls rest) hfailed hstarted]
      exact ⟨rfl, rfl, rfl, (sinkAfter_nil _).symm⟩

/-- A program given to an encoder that has not failed, into a sink with room for its stream: the stream is accepted, by
induction on the items (R183, R187). -/
theorem run_command_program {s : State} (items : List Item) (hcalls : s.calls = items.flatMap commandCalls)
    (hfailed : s.ce.failed = false) (hmode : ∀ m, Item.mode m ∈ items → m = s.ce.mode ∨ s.ce.started = true)
    (hroom : ∀ n, s.ceSink.room = some n → (commandStream s.alphabet s.ce items).length ≤ n) :
    ∃ t, Sys2Proof.core.run items.length s = .next t ∧ t.ce.failed = false ∧
      t.ceSink = sinkAfter s.ceSink (commandStream s.alphabet s.ce items) := by
  induction items generalizing s with
  | nil => exact ⟨s, rfl, hfailed, (sinkAfter_nil _).symm⟩
  | cons item rest ih =>
    simp only [commandStream, List.length_append] at hroom
    obtain ⟨u, hstep, hucalls, hualphabet, huce, husink⟩ := step_item hcalls hfailed
      (fun m hm => hmode m (by simp [hm])) (fun n hn => Nat.le_of_add_right_le (hroom n hn))
    obtain ⟨t, hrun, htfailed, htsink⟩ := ih hucalls (by simp [huce, hfailed])
      (fun m hm => by
        rw [huce, afterItem_mode]
        exact (hmode m (by simp [hm])).imp_right (afterItem_started · item))
      (fun n hn => by
        rw [husink] at hn
        obtain ⟨n', hn', rfl⟩ := Option.map_eq_some_iff.mp hn
        have := hroom n' hn'
        rw [hualphabet, huce]
        omega)
    refine ⟨t, by rw [List.length_cons, run_succ _ hstep, hrun], htfailed, ?_⟩
    rw [htsink, husink, hualphabet, huce, sinkAfter_append]
    rfl

/-- The same for a program of instructions and directives and a sink without bound (R183, R187). -/
theorem run_encodesCommands {s : State} {items : List Item} (hencodes : EncodesCommands s items) :
    ∃ t, Sys2Proof.core.run items.length s = .next t ∧
      t.ceSink.accepted = s.ceSink.accepted ++ commandStream s.alphabet s.ce items := by
  obtain ⟨hnomode, hcalls, hfailed, hroom⟩ := hencodes
  obtain ⟨t, hrun, -, hsink⟩ := run_command_program items hcalls hfailed (fun m hm => absurd hm (hnomode m))
    (by simp [hroom])
  exact ⟨t, hrun, by rw [hsink, sinkAfter]⟩

end Sys2Proof.Proofs

/-! ### The length of the command stream: settled statements (R190, R191) -/

namespace Sys2Proof.Proofs
open Sys2Proof.Machine Sys2Proof.Reference

/-- The characters of an instruction's annotation, if comments are on (R188). -/
def commentLength (e : CommandEncoder) (op : Opcode) : Nat :=
  if e.comments then (mnemonic (decode op)).length + 2 else 0

/-- An emission is its block and its annotation (R183). -/
theorem length_emission (a : Config.Alphabet) (e : CommandEncoder) (op : Opcode) :
    (emission a e op).length = (block a e op).length + commentLength e op := by
  cases hcomments : e.comments <;> simp [emission, annotation, commentLength, hcomments]

/-- A block of a fixed-length mode (R185, R186, R190). -/
theorem length_block_fixed {e : CommandEncoder} (hmode : e.mode ≠ .off) (a : Config.Alphabet) (op : Opcode) :
    (block a e op).length = if e.mode = .inst then 5 else 6 := by
  unfold block
  cases h : e.mode with
  | off => exact absurd h hmode
  | inst => simp [commandString_eq]
  | data => simp [commandString_eq]

/-- In a fixed-length mode an item takes the characters that `fixedLength` counts for it (R190). -/
theorem fixedLength_cons {e : CommandEncoder} (hmode : e.mode ≠ .off) (a : Config.Alphabet) (item : Item)
    (rest : List Item) :
    fixedLength e (item :: rest) = (itemChars a e item).length + fixedLength e rest := by
  cases item with
  | op i =>
    rw [itemChars, length_emission, length_block_fixed hmode]
    simp only [fixedLength, opcodes, directives, annotationLength, commentLength, List.length_cons, List.map_cons,
      List.sum_cons]
    split <;> split <;> omega
  | setData v =>
    have hdata : e.mode = .data ↔ e.mode ≠ .inst := by cases h : e.mode <;> simp_all
    by_cases hinst : e.mode = .inst <;>
      simp [fixedLength, opcodes, directives, annotationLength, itemChars, hdata, hinst]
    omega
  | mode m => simp [fixedLength, opcodes, directives, annotationLength, itemChars]

/-- The stream of a program in a fixed-length mode, by induction on its items (R190). -/
theorem length_commandStream_fixed (a : Config.Alphabet) {e : CommandEncoder} (hmode : e.mode ≠ .off)
    (items : List Item) : (commandStream a e items).length = fixedLength e items := by
  induction items generalizing e with
  | nil => simp [commandStream, fixedLength, opcodes, directives, annotationLength]
  | cons item rest ih =>
    have hrest : fixedLength (afterItem e item) rest = fixedLength e rest := by simp [fixedLength]
    rw [fixedLength_cons hmode a, commandStream, List.length_append, ih (by simpa using hmode), hrest]

/-- Settles O51: the sink accepts the program's stream (`run_command_program`), whose length in a fixed-length mode
depends on no opcode (`length_commandStream_fixed`) (R190). -/
theorem fixedLengthCounts : Obligations.FixedLengthCounts := by
  intro s items hcalls hfailed hfixed hmode hroom
  have hlength := length_commandStream_fixed s.alphabet hfixed items
  obtain ⟨t, hrun, htfailed, hsink⟩ := run_command_program items hcalls hfailed hmode (by rwa [hlength])
  exact ⟨t, _, hrun, htfailed, by rw [hsink, sinkAfter], hlength⟩

/-- A diff block has a character for each line that changes, and the clock pulse (R184, R191). -/
theorem length_diffBlock (a : Config.Alphabet) (p c : Opcode) : (diffBlock a p c).length = changedLines p c + 1 := by
  have hchanged : ∀ p c : Opcode,
      (lineOrder.filter fun (k : Fin 4) => c.getLsbD k != p.getLsbD k).length = changedLines p c := by decide
  simp [diffBlock, ← hchanged]

/-- At most four lines change (R191). -/
theorem changedLines_le (p c : Opcode) : changedLines p c ≤ 4 := List.length_filter_le _ (List.range 4)

/-- All four lines change exactly where every bit differs (R191). -/
theorem changedLines_eq_four_iff : ∀ p c : Opcode, changedLines p c = 4 ↔ c = ~~~p := by decide

/-- The stream of a program in diff mode is at most as long as in `inst` mode, and as long exactly where every opcode
differs from its predecessor in all four bits, by induction on the items (R191). -/
theorem length_commandStream_diff (a a' : Config.Alphabet) (items : List Item) {e e' : CommandEncoder}
    (hoff : e.mode = .off) (hinst : e'.mode = .inst) (hcomments : e'.comments = e.comments) :
    (commandStream a e items).length ≤ (commandStream a' e' items).length ∧
      ((commandStream a e items).length = (commandStream a' e' items).length ↔
        AllBitsDiffer e.prev (opcodes items)) := by
  induction items generalizing e e' with
  | nil => simp [commandStream, opcodes, AllBitsDiffer]
  | cons item rest ih =>
    obtain ⟨hle, heq⟩ := ih (e := afterItem e item) (e' := afterItem e' item) (by simpa) (by simpa) (by simpa)
    simp only [commandStream, List.length_append]
    cases item with
    | op i =>
      have hdiff : (itemChars a e (.op i)).length =
          changedLines e.prev (encode i) + 1 + commentLength e (encode i) := by
        rw [itemChars, length_emission, block, hoff]
        simp [length_diffBlock]
      have hfixed : (itemChars a' e' (.op i)).length = 5 + commentLength e (encode i) := by
        rw [itemChars, length_emission, length_block_fixed (by simp [hinst]), if_pos hinst, commentLength,
          commentLength, hcomments]
      have hprev : (afterItem e (.op i)).prev = encode i := if_pos hoff
      have hfour := changedLines_eq_four_iff e.prev (encode i)
      have hle4 := changedLines_le e.prev (encode i)
      rw [hprev] at heq
      rw [opcodes, AllBitsDiffer, ← hfour, ← heq, hdiff, hfixed]
      omega
    | setData v =>
      have hchars : (itemChars a e (.setData v)).length = (itemChars a' e' (.setData v)).length := by
        simp [itemChars, hoff, hinst]
      rw [hchars, Nat.add_le_add_iff_left, Nat.add_left_cancel_iff]
      exact ⟨hle, heq⟩
    | mode m =>
      simp only [itemChars, List.length_nil, Nat.zero_add]
      exact ⟨hle, heq⟩

/-- Settles O52: a diff block counts its changed lines (`length_diffBlock`); both sinks accept their program's stream
(`run_encodesCommands`), and the streams compare as `length_commandStream_diff` says (R191). -/
theorem diffModeIsNeverLonger : Obligations.DiffModeIsNeverLonger := by
  refine ⟨fun a p c => ?block, fun s s' items hencodes hencodes' hoff hprev hinst hcomments => ?stream⟩
  case block =>
    have hle := changedLines_le p c
    rw [length_diffBlock]
    omega
  case stream =>
    obtain ⟨t, hrun, haccepted⟩ := run_encodesCommands hencodes
    obtain ⟨t', hrun', haccepted'⟩ := run_encodesCommands hencodes'
    obtain ⟨hle, heq⟩ := length_commandStream_diff s.alphabet s'.alphabet items hoff hinst hcomments
    exact ⟨t, t', _, _, hrun, haccepted, hrun', haccepted', hle, by rw [heq, hprev]⟩

end Sys2Proof.Proofs

/-! ### The reader reads the command stream (R192, R193, R202, R204, R205, R211) -/

namespace Sys2Proof.Proofs
open Sys2Proof.Machine Sys2Proof.Reference

/-- Every run from a state that meets `P` comes to a state that meets `Q`. -/
def Leads (P Q : State → Prop) : Prop := ∀ u, P u → ∃ n v, Sys2Proof.core.run n u = .next v ∧ Q v

theorem Leads.refl (P : State → Prop) : Leads P P := fun u hu => ⟨0, u, rfl, hu⟩

theorem Leads.trans {P Q R : State → Prop} (hPQ : Leads P Q) (hQR : Leads Q R) : Leads P R := by
  intro u hu
  obtain ⟨m, v, hm, hv⟩ := hPQ u hu
  obtain ⟨n, w, hn, hw⟩ := hQR v hv
  exact ⟨m + n, w, (run_add m n hm).trans hn, hw⟩

/-- One step leads to the state it answers. -/
theorem Leads.of_step {P Q : State → Prop} (hstep : ∀ u, P u → ∃ v, step u = .next v ∧ Q v) : Leads P Q := by
  intro u hu
  obtain ⟨v, huv, hv⟩ := hstep u hu
  exact ⟨1, v, run_succ 0 huv, hv⟩

/-- The reader stands between two characters with this input and these levels, and PSM and its history are these
(R200). -/
structure Reading (a : Config.Alphabet) (input : List Char) (lines : Opcode) (dataLine : Bit)
    (view : Psm × List HistoryEvent) (u : State) : Prop where
  alphabet : u.alphabet = a
  calls : u.calls = []
  pulseHigh : u.sr.pulseHigh = false
  stopped : u.sr.stopped = false
  input : u.sr.input = input
  lines : u.sr.lines = lines
  dataLine : u.sr.dataLine = dataLine
  view : (u.psm, u.history) = view

section
variable {a : Config.Alphabet} (hwf : a.WellFormed) (rest : List Char) (l : Opcode) (d : Bit)
  (view : Psm × List HistoryEvent)

/-- A comment is read over (R202). -/
theorem read_annotation (op : Opcode) :
    Leads (Reading a (annotation op ++ rest) l d view) (Reading a rest l d view) := by
  refine .of_step ?_
  rintro u ⟨rfl, hcalls, hpulse, hstopped, hinput, hlines, hdata, hview⟩
  have hname : ∀ i, '\n' ∉ mnemonic i := by intro i; cases i <;> decide
  have hinput' : u.sr.input = Config.commentMark :: (mnemonic (decode op) ++ '\n' :: rest) := by
    simp [hinput, annotation, Config.lineEnd]
  refine ⟨_, step_comment hcalls hpulse hstopped hinput', ?_⟩
  rw [dropComment_append _ rest (hname _)]
  exact ⟨rfl, hcalls, hpulse, hstopped, rfl, hlines, hdata, hview⟩

include hwf

/-- A line character sets its line (R204). -/
theorem read_lineChar (k : Fin 4) (high : Bool) :
    Leads (Reading a (lineChar a k high :: rest) l d view) (Reading a rest (setLine l k high) d view) := by
  refine .of_step ?_
  rintro u ⟨rfl, hcalls, hpulse, hstopped, hinput, rfl, hdata, hview⟩
  exact ⟨_, step_lineChar hwf hcalls hpulse hstopped hinput, rfl, hcalls, hpulse, hstopped, rfl, rfl, hdata, hview⟩

/-- A data character sets the data line (R204). -/
theorem read_dataChar (v : Bit) :
    Leads (Reading a (dataChar a v :: rest) l d view) (Reading a rest l v view) := by
  refine .of_step ?_
  rintro u ⟨rfl, hcalls, hpulse, hstopped, hinput, hlines, -, hview⟩
  exact ⟨_, step_dataChar hwf hcalls hpulse hstopped hinput, rfl, hcalls, hpulse, hstopped, rfl, hlines, rfl, hview⟩

/-- The clock character is one clock cycle with the levels as they stand: a step for each edge (R205). -/
theorem read_clock :
    Leads (Reading a (a.clock :: rest) l d view) (Reading a rest l d (clockCycle view (l, d))) := by
  rintro u ⟨rfl, hcalls, hpulse, hstopped, hinput, rfl, rfl, rfl⟩
  have hrun := (run_succ 1 (step_clock hcalls hpulse hstopped hwf hinput)).trans
    (run_succ 0 (step_of_pulseHigh hcalls rfl))
  exact ⟨2, _, hrun, rfl, hcalls, rfl, hstopped, rfl, rfl, rfl, rfl⟩

/-- The characters of some lines set those lines, one by one (R204). -/
theorem read_lineChars (op : Opcode) (ks : List (Fin 4)) :
    Leads (Reading a (ks.map (fun (k : Fin 4) => lineChar a k (op.getLsbD k)) ++ rest) l d view)
      (Reading a rest (ks.foldl (fun v (k : Fin 4) => setLine v k (op.getLsbD k)) l) d view) := by
  induction ks generalizing l with
  | nil => exact .refl _
  | cons k ks ih => exact (read_lineChar hwf _ l d view k _).trans (ih _)

/-- A command string sets the lines to its opcode, whatever they were (R80, R193). -/
theorem read_commandString (op : Opcode) :
    Leads (Reading a (commandString a op ++ rest) l d view) (Reading a rest op d view) := by
  have h := read_lineChars hwf rest l d view op lineOrder
  rwa [setLine_all] at h

end
end Sys2Proof.Proofs

/-! ### The program's clock cycles from its stream: settled statement (R192, R193, R211) -/

namespace Sys2Proof.Proofs
open Sys2Proof.Machine Sys2Proof.Reference

/-- The data line on an instruction's clock cycle: in `data` mode its block sets it first (R186, R211). -/
def cycleData (e : CommandEncoder) (d : Bit) : Bit := if e.mode = .data then e.dataValue else d

section
variable {a : Config.Alphabet} (hwf : a.WellFormed)
include hwf

/-- A block, read with the lines where diff mode supposes them, is one clock cycle with its opcode on the lines, in
every mode (R192, R193). -/
theorem read_block (rest : List Char) {l : Opcode} (d : Bit) (view : Psm × List HistoryEvent) {e : CommandEncoder}
    (hlines : e.mode = .off → l = e.prev) (op : Opcode) :
    Leads (Reading a (block a e op ++ rest) l d view)
      (Reading a rest op (cycleData e d) (clockCycle view (op, cycleData e d))) := by
  unfold block cycleData
  cases hmode : e.mode with
  | off =>
    have hchanged := read_lineChars hwf (a.clock :: rest) l d view op
      (lineOrder.filter fun (k : Fin 4) => op.getLsbD k != l.getLsbD k)
    rw [setLine_changed] at hchanged
    simpa [diffBlock, hlines hmode] using hchanged.trans (read_clock hwf rest op d view)
  | inst =>
    simpa using (read_commandString hwf (a.clock :: rest) l d view op).trans (read_clock hwf rest op d view)
  | data =>
    simpa using (read_commandString hwf (dataChar a e.dataValue :: a.clock :: rest) l d view op).trans
      ((read_dataChar hwf (a.clock :: rest) op d view e.dataValue).trans (read_clock hwf rest op e.dataValue view))

/-- An emission is read as its block: an annotation is a comment (R188, R202). -/
theorem read_emission (rest : List Char) {l : Opcode} (d : Bit) (view : Psm × List HistoryEvent) {e : CommandEncoder}
    (hlines : e.mode = .off → l = e.prev) (op : Opcode) :
    Leads (Reading a (emission a e op ++ rest) l d view)
      (Reading a rest op (cycleData e d) (clockCycle view (op, cycleData e d))) := by
  rw [emission, List.append_assoc]
  refine (read_block hwf _ d view hlines op).trans ?_
  cases e.comments with
  | false => exact .refl _
  | true => exact read_annotation rest op _ _ op

/-- A program's stream is read as its clock cycles, by induction on the items: the encoder's `prev` follows the lines
(R184), and its data value or the data line follows the directives (R187, R211). -/
theorem read_commandStream (items : List Item) {l : Opcode} (d : Bit) (view : Psm × List HistoryEvent)
    {e : CommandEncoder} (hlines : e.mode = .off → l = e.prev) :
    Leads (Reading a (commandStream a e items) l d view)
      (fun v => ∃ l' d', Reading a [] l' d' ((levels (cycleData e d) items).foldl clockCycle view) v) := by
  induction items generalizing e l d view with
  | nil => exact fun u hu => ⟨0, u, rfl, l, d, hu⟩
  | cons item rest ih =>
    cases item with
    | op i =>
      have hdata : cycleData (afterItem e (.op i)) (cycleData e d) = cycleData e d := by
        unfold cycleData
        split <;> simp_all [afterItem]
      have hrest := ih (cycleData e d) (clockCycle view (encode i, cycleData e d)) (e := afterItem e (.op i))
        (fun hoff => (if_pos hoff).symm)
      rw [hdata] at hrest
      exact (read_emission hwf _ d view hlines (encode i)).trans hrest
    | setData v =>
      by_cases hmode : e.mode = .data
      · have hrest := ih d view (e := afterItem e (.setData v)) hlines
        simpa [commandStream, itemChars, levels, cycleData, afterItem, hmode] using hrest
      · have hrest := ih v view (e := afterItem e (.setData v)) hlines
        have hread := (read_dataChar hwf _ l d view v).trans hrest
        simpa [commandStream, itemChars, levels, cycleData, hmode] using hread
    | mode m => exact ih d view hlines

end

/-- Settles O58: the sink accepts the program's stream (`run_encodesCommands`), and the reader reads that stream as the
program's clock cycles (`read_commandStream`) (R192, R193, R211). -/
theorem streamDrivesTheProgram : Obligations.StreamDrivesTheProgram := by
  intro s u items hencodes hempty hwf halphabet hcalls hpulse hstopped hlines
  obtain ⟨t, hrun, haccepted⟩ := run_encodesCommands hencodes
  rw [hempty, List.nil_append] at haccepted
  refine ⟨t, hrun, fun hinput => ?_⟩
  have hreading : Reading s.alphabet (commandStream s.alphabet s.ce items) u.sr.lines u.sr.dataLine
      (u.psm, u.history) u := ⟨halphabet, hcalls, hpulse, hstopped, hinput.trans haccepted, rfl, rfl, rfl⟩
  obtain ⟨n, v, hread, _, _, hv⟩ := read_commandStream hwf items u.sr.dataLine _ hlines u hreading
  exact ⟨n, v, hread, hv.input, hv.stopped, hv.pulseHigh, hv.view⟩

end Sys2Proof.Proofs
